-- ==== Sys2Proof/Word.lean ====
section
/-! DEFINITION. The word and register-number types (spec/10_state.md R10, spec/20_memory.md R20). -/

namespace Sys2Proof

/-- A 16-bit value: a general register, the pc, an address, a RAM cell or an instruction word
(00_scope.md R4: XLEN, WORD, ALEN, PCLEN and ILEN are all 16). -/
abbrev Word := BitVec 16

/-- The number of a general register, the value of a 3-bit register field (10_state.md R10). -/
abbrev RegIdx := Fin 8

end Sys2Proof
end

