-- ==== Sys2Proof/Config.lean ====
section
/-! DEFINITION. What an implementation fixes (spec/00_scope.md R4) and the one free value of the model. -/

namespace Sys2Proof

/-- Where instructions are fetched from: MEM_ORG of 00_scope.md R4, an OPEN parameter. -/
inductive MemOrg where
  /-- The program text is outside RAM; LW and SW cannot reach it (20_memory.md R29). -/
  | separate
  /-- The program text and RAM are one array; LW and SW to program text are stuck (20_memory.md R29). -/
  | unified
  deriving DecidableEq, Repr

/-- The three flags of the Status Register; their places in it are not observable (10_state.md R14, R15). -/
structure Machine.Flags where
  ZF : Bool
  SF : Bool
  OF : Bool
  deriving DecidableEq, Repr

/-- The parameters of 00_scope.md R4 that a choice can vary; the values the spec takes are `Machine.defaultConfig`. Those
that the types fix follow as `Config.ilen` to `Config.pclen`. -/
structure Config where
  /-- RAM_WORDS, the number of RAM cells (20_memory.md R20). -/
  ramWords : Nat
  /-- MEM_ORG (20_memory.md R29). -/
  memOrg : MemOrg
  /-- OP_SW, the opcode of SW (30_encoding.md R36). -/
  opSw : BitVec 5
  /-- OP_SUBI, the opcode of SUBI (30_encoding.md R36). -/
  opSubi : BitVec 5
  /-- RESET_PC, the pc after reset (70_reset_and_hazards.md R70). -/
  resetPc : Word
  /-- PC_STEP, the advance of the pc for one instruction (10_state.md R12, R13; decision D6). -/
  pcStep : Word
  /-- cmpFlags, the flag function of CMP, as plain data (assumption 5): the operand pairs at which it differs from the
  function of 44_compare_setc.md R50, each with its flags. The function is `Machine.configuredFlags`. -/
  cmpOverrides : List ((Word × Word) × Machine.Flags)
  deriving DecidableEq, Repr

/-! ### The parameters of 00_scope.md R4 that the types fix -/

/-- ILEN, the instruction length in bits. -/
def Config.ilen (_ : Config) : Nat := 16

/-- XLEN, the width of a general register in bits. -/
def Config.xlen (_ : Config) : Nat := 16

/-- NREGS, the number of general registers. -/
def Config.nregs (_ : Config) : Nat := 8

/-- OPBITS, the width of the opcode, bits 15:11. -/
def Config.opbits (_ : Config) : Nat := 5

/-- WORD, the width of a RAM cell in bits. -/
def Config.word (_ : Config) : Nat := 16

/-- ALEN, the width of a RAM address in bits. -/
def Config.alen (_ : Config) : Nat := 16

/-- PCLEN, the width of the pc in bits. -/
def Config.pclen (_ : Config) : Nat := 16

/-- FREE VALUE, marked DESIGN CHOICE (assumption 3): the content at launch of a RAM cell that nothing has written.
The spec calls it unspecified (10_state.md R19, 20_memory.md R21); nothing constrains it here. -/
opaque Config.launchRam : Word → Word

end Sys2Proof
end

