-- ==== Sys2Proof/Machine/Params.lean ====
section
/-! DEFINITION. The values the model takes for the parameters of spec/00_scope.md R4, and what the registers and
flags hold at reset. They stand here, and not beside State, so that a later repair may mend them. -/

namespace Sys2Proof.Machine

/-- The spec's values of its parameters (00_scope.md R4; decisions D2, D3, D6, D7, D8, D13, D18 of 92_eei_decisions.md):
PC_STEP is 1, and cmpFlags is the function of 44_compare_setc.md R50, with no override. -/
def defaultConfig : Config where
  ramWords := 65536
  memOrg := .separate
  opSw := 0b00010
  opSubi := 0b01010
  resetPc := 0x0000
  pcStep := 1
  cmpOverrides := []

/-- What general register `r` holds at reset. DESIGN CHOICE, unsafe (assumption 1): the spec leaves it unspecified and
says that a model never supplies zero (10_state.md R19, 60_exceptions.md R67). -/
def resetReg (r : RegIdx) : Word := 0xA5A0 + BitVec.ofNat 16 r.val

/-- What each of ZF, SF and OF holds at reset. DESIGN CHOICE, unsafe (assumption 2): the spec leaves them unspecified
(10_state.md R19); no CMP can leave all three set (44_compare_setc.md R50). -/
def resetFlag : Bool := true

end Sys2Proof.Machine
end

