-- ==== Sys2Proof/Syntax.lean ====
section
/-! DEFINITION. The instructions: one constructor for each row of spec/opcode_table.json, in the table's order, and the
reasons a word is no instruction. -/

namespace Sys2Proof

/-- The instructions. `rd` and `ra` are the fields Rd and Ra, `simm5` and `imm8` the immediate fields as they stand
in the word (30_encoding.md R31, R32, R35). JE to JNS are the spellings of JMP with a fixed code (45_jump.md R55). -/
inductive Instr where
  /-- NOP (40_nop.md R40). -/
  | nop
  /-- LW Rd, Simm5(Ra) (41_load_store.md R41). -/
  | lw (rd ra : RegIdx) (simm5 : BitVec 5)
  /-- SW Rd, Simm5(Ra) (41_load_store.md R42). -/
  | sw (rd ra : RegIdx) (simm5 : BitVec 5)
  /-- MOVR %Ra, %Rd (42_move.md R43). -/
  | movr (rd ra : RegIdx)
  /-- MOVI $Imm8, %Rd (42_move.md R44). -/
  | movi (rd : RegIdx) (imm8 : BitVec 8)
  /-- ADD %Rd, %Ra (43_arith.md R45). -/
  | add (rd ra : RegIdx)
  /-- ADDI $Imm8, %Rd (43_arith.md R46). -/
  | addi (rd : RegIdx) (imm8 : BitVec 8)
  /-- SUBI $Imm8, %Rd (43_arith.md R47). -/
  | subi (rd : RegIdx) (imm8 : BitVec 8)
  /-- JMP Rd, Imm8 (45_jump.md R53). -/
  | jmp (rd : RegIdx) (imm8 : BitVec 8)
  /-- CMP Rd, Ra (44_compare_setc.md R49). -/
  | cmp (rd ra : RegIdx)
  /-- SETC $Imm8, %Rd (44_compare_setc.md R51). -/
  | setc (rd : RegIdx) (imm8 : BitVec 8)
  /-- JE Rd, JMP with code 1 (45_jump.md R55). -/
  | je (rd : RegIdx)
  /-- JNE Rd, JMP with code 2 (45_jump.md R55). -/
  | jne (rd : RegIdx)
  /-- JG Rd, JMP with code 3 (45_jump.md R55). -/
  | jg (rd : RegIdx)
  /-- JGE Rd, JMP with code 4 (45_jump.md R55). -/
  | jge (rd : RegIdx)
  /-- JL Rd, JMP with code 5 (45_jump.md R55). -/
  | jl (rd : RegIdx)
  /-- JLE Rd, JMP with code 6 (45_jump.md R55). -/
  | jle (rd : RegIdx)
  /-- JS Rd, JMP with code 7 (45_jump.md R55). -/
  | js (rd : RegIdx)
  /-- JNS Rd, JMP with code 8 (45_jump.md R55). -/
  | jns (rd : RegIdx)
  deriving DecidableEq, Repr

/-- Why a word is invalid, the two reasons of 60_exceptions.md R62. -/
inductive Invalid where
  /-- The opcode has no instruction (30_encoding.md R38). -/
  | unassignedOpcode (op : BitVec 5)
  /-- A JMP or SETC word with a condition code above 8 (45_jump.md R56). -/
  | reservedCondition (code : BitVec 8)
  deriving DecidableEq, Repr

end Sys2Proof
end

