-- ==== Sys2Proof/WellFormed.lean ====
section
/-! DEFINITION. Which instruction terms the spec calls valid: the condition code of JMP and SETC is one of 0..8
(spec/45_jump.md R53, R56, spec/44_compare_setc.md R51). Every other operand may hold every value of its field. -/

namespace Sys2Proof

/-- The instruction's operands have values the spec gives it. -/
def Instr.wellFormed : Instr → Bool
  | .jmp _ imm8 => imm8.toNat ≤ 8
  | .setc _ imm8 => imm8.toNat ≤ 8
  | .nop => true
  | .lw _ _ _ => true
  | .sw _ _ _ => true
  | .movr _ _ => true
  | .movi _ _ => true
  | .add _ _ => true
  | .addi _ _ => true
  | .subi _ _ => true
  | .cmp _ _ => true
  | .je _ => true
  | .jne _ => true
  | .jg _ => true
  | .jge _ => true
  | .jl _ => true
  | .jle _ => true
  | .js _ => true
  | .jns _ => true

end Sys2Proof
end

