-- ==== Sys2Proof/Decode.lean ====
section
/-! DEFINITION. Decoding and encoding (spec/30_encoding.md R30 to R38). Every instruction is one 16-bit word. -/

namespace Sys2Proof

/-! ### Fields of a word (30_encoding.md R31) -/

/-- `op = w[15:11]`. -/
def opcodeOf (w : Word) : BitVec 5 := w.extractLsb' 11 5

/-- `Rd = w[10:8]`. -/
def rdOf (w : Word) : RegIdx := (w.extractLsb' 8 3).toFin

/-- `Ra = w[7:5]`. -/
def raOf (w : Word) : RegIdx := (w.extractLsb' 5 3).toFin

/-- `Simm5 = w[4:0]`. -/
def simm5Of (w : Word) : BitVec 5 := w.extractLsb' 0 5

/-- `Imm8 = w[7:0]`. -/
def imm8Of (w : Word) : BitVec 8 := w.extractLsb' 0 8

/-! ### The opcode map (30_encoding.md R33) -/

/-- The eleven instructions of the opcode map; JE to JNS are JMP there. -/
inductive Operation where
  | nop | lw | sw | movr | movi | add | addi | subi | jmp | cmp | setc
  deriving DecidableEq, Repr

/-- The nine opcodes that the source prints and the spec uses as printed (30_encoding.md R33). -/
def printedOperation (op : BitVec 5) : Option Operation :=
  match op with
  | 0b00000 => some .nop
  | 0b00001 => some .lw
  | 0b00011 => some .movr
  | 0b00100 => some .movi
  | 0b01000 => some .add
  | 0b01001 => some .addi
  | 0b01100 => some .jmp
  | 0b01101 => some .cmp
  | 0b10101 => some .setc
  | _ => none

/-- The opcode map. The printed opcodes are looked at before OP_SW and OP_SUBI, so that 00001 is LW and 01001 is ADDI
whatever the parameters are (30_encoding.md R36).
DESIGN CHOICE (assumption 13): where the parameters give OP_SW and OP_SUBI one and the same free opcode, a word with it is
SW, and no word is SUBI; the spec does not say what such a word means. -/
def operationOf (c : Config) (op : BitVec 5) : Option Operation :=
  match printedOperation op with
  | some o => some o
  | none => if op = c.opSw then some .sw else if op = c.opSubi then some .subi else none

/-- The opcode of each row of the map (30_encoding.md R33). -/
def Operation.opcode (c : Config) : Operation → BitVec 5
  | .nop => 0b00000
  | .lw => 0b00001
  | .sw => c.opSw
  | .movr => 0b00011
  | .movi => 0b00100
  | .add => 0b01000
  | .addi => 0b01001
  | .subi => c.opSubi
  | .jmp => 0b01100
  | .cmp => 0b01101
  | .setc => 0b10101

/-- A choice of the parameters under which no two instructions share an opcode (30_encoding.md R36) and RAM does
not exceed the address space (20_memory.md R20). -/
abbrev Config.Valid (c : Config) : Prop :=
  printedOperation c.opSw = none ∧ printedOperation c.opSubi = none ∧ c.opSw ≠ c.opSubi ∧ c.ramWords ≤ 65536

/-- JMP with code 0..8 under the name the table gives it: codes 1..8 are JE to JNS (45_jump.md R55). -/
def jumpSpelling (rd : RegIdx) (code : BitVec 8) : Instr :=
  match code.toNat with
  | 1 => .je rd
  | 2 => .jne rd
  | 3 => .jg rd
  | 4 => .jge rd
  | 5 => .jl rd
  | 6 => .jle rd
  | 7 => .js rd
  | 8 => .jns rd
  | _ => .jmp rd code

/-- The instruction under the name the decoder gives it: JMP with code 1..8 becomes JE to JNS, all else stays. -/
def Instr.canonical (i : Instr) : Instr :=
  match i with
  | .jmp rd code => jumpSpelling rd code
  | _ => i

/-- The last two steps of decoding JMP and SETC: a code above 8 makes the word invalid (30_encoding.md R38). -/
def withCondition (code : BitVec 8) (i : Instr) : Except Invalid Instr :=
  if code.toNat ≤ 8 then .ok i else .error (.reservedCondition code)

/-- The instruction of a word whose operation is known. -/
def decodeOperation (w : Word) : Operation → Except Invalid Instr
  | .nop => .ok .nop
  | .lw => .ok (.lw (rdOf w) (raOf w) (simm5Of w))
  | .sw => .ok (.sw (rdOf w) (raOf w) (simm5Of w))
  | .movr => .ok (.movr (rdOf w) (raOf w))
  | .movi => .ok (.movi (rdOf w) (imm8Of w))
  | .add => .ok (.add (rdOf w) (raOf w))
  | .addi => .ok (.addi (rdOf w) (imm8Of w))
  | .subi => .ok (.subi (rdOf w) (imm8Of w))
  | .jmp => withCondition (imm8Of w) (jumpSpelling (rdOf w) (imm8Of w))
  | .cmp => .ok (.cmp (rdOf w) (raOf w))
  | .setc => withCondition (imm8Of w) (.setc (rdOf w) (imm8Of w))

/-- The decoder, total on all 65536 words (60_exceptions.md R62): the opcode first, then, for JMP and SETC alone, the
condition code (60_exceptions.md R60). Ignored bits take no part (30_encoding.md R37). -/
def decode (c : Config) (w : Word) : Except Invalid Instr :=
  match operationOf c (opcodeOf w) with
  | some o => decodeOperation w o
  | none => .error (.unassignedOpcode (opcodeOf w))

/-! ### Encoding -/

/-- The row of the opcode map an instruction belongs to (30_encoding.md R33, 45_jump.md R55). -/
def Instr.operation : Instr → Operation
  | .nop => .nop
  | .lw _ _ _ => .lw
  | .sw _ _ _ => .sw
  | .movr _ _ => .movr
  | .movi _ _ => .movi
  | .add _ _ => .add
  | .addi _ _ => .addi
  | .subi _ _ => .subi
  | .cmp _ _ => .cmp
  | .setc _ _ => .setc
  | .jmp _ _ => .jmp
  | .je _ => .jmp
  | .jne _ => .jmp
  | .jg _ => .jmp
  | .jge _ => .jmp
  | .jl _ => .jmp
  | .jle _ => .jmp
  | .js _ => .jmp
  | .jns _ => .jmp

/-- The opcode of an instruction. -/
def Instr.opcode (c : Config) (i : Instr) : BitVec 5 := i.operation.opcode c

/-- Format M, and format R with zero in its ignored bits: opcode, Rd, Ra, low five bits (30_encoding.md R31, R37). -/
def packM (op : BitVec 5) (rd ra : RegIdx) (low : BitVec 5) : Word :=
  op ++ BitVec.ofFin (w := 3) rd ++ BitVec.ofFin (w := 3) ra ++ low

/-- Format I: opcode, Rd, Imm8 (30_encoding.md R31). -/
def packI (op : BitVec 5) (rd : RegIdx) (imm8 : BitVec 8) : Word :=
  op ++ BitVec.ofFin (w := 3) rd ++ imm8

/-- The word of an instruction, zero in ignored bits (30_encoding.md R37). -/
def encode (c : Config) (i : Instr) : Word :=
  match i with
  | .nop => packI (i.opcode c) 0 0
  | .lw rd ra simm5 => packM (i.opcode c) rd ra simm5
  | .sw rd ra simm5 => packM (i.opcode c) rd ra simm5
  | .movr rd ra => packM (i.opcode c) rd ra 0
  | .movi rd imm8 => packI (i.opcode c) rd imm8
  | .add rd ra => packM (i.opcode c) rd ra 0
  | .addi rd imm8 => packI (i.opcode c) rd imm8
  | .subi rd imm8 => packI (i.opcode c) rd imm8
  | .cmp rd ra => packM (i.opcode c) rd ra 0
  | .setc rd imm8 => packI (i.opcode c) rd imm8
  | .jmp rd imm8 => packI (i.opcode c) rd imm8
  | .je rd => packI (i.opcode c) rd 1
  | .jne rd => packI (i.opcode c) rd 2
  | .jg rd => packI (i.opcode c) rd 3
  | .jge rd => packI (i.opcode c) rd 4
  | .jl rd => packI (i.opcode c) rd 5
  | .jle rd => packI (i.opcode c) rd 6
  | .js rd => packI (i.opcode c) rd 7
  | .jns rd => packI (i.opcode c) rd 8

/-- The bits of an instruction's word that are not ignored: 15:11 of NOP, 15:5 of MOVR, ADD and CMP, all of every
other word (30_encoding.md R31, R37). -/
def Instr.significantBits : Instr → Word
  | .nop => 0xF800
  | .movr _ _ => 0xFFE0
  | .add _ _ => 0xFFE0
  | .cmp _ _ => 0xFFE0
  | .lw _ _ _ => 0xFFFF
  | .sw _ _ _ => 0xFFFF
  | .movi _ _ => 0xFFFF
  | .addi _ _ => 0xFFFF
  | .subi _ _ => 0xFFFF
  | .jmp _ _ => 0xFFFF
  | .setc _ _ => 0xFFFF
  | .je _ => 0xFFFF
  | .jne _ => 0xFFFF
  | .jg _ => 0xFFFF
  | .jge _ => 0xFFFF
  | .jl _ => 0xFFFF
  | .jle _ => 0xFFFF
  | .js _ => 0xFFFF
  | .jns _ => 0xFFFF

/-- The word whose bits 15:0 are those of `w`, of which the lowest `nbits` count. -/
def tableWord (nbits w : Nat) : Word := BitVec.ofNat 16 (w % 2 ^ nbits)

/-- What the decoder reads from a word numbered as spec/opcode_table.json numbers its bits, under the spec's values
of the open parameters; none where it refuses. -/
def decodeTableWord (nbits w : Nat) : Option Instr :=
  match decode Machine.defaultConfig (tableWord nbits w) with
  | .ok i => some i
  | .error _ => none

end Sys2Proof
end

