-- ==== Sys2Proof/Machine/State.lean ====
section
/-! DEFINITION. The state of the machine (spec/10_state.md), the reasons it stops, and the state after reset. -/

namespace Sys2Proof.Machine

/-- Sixteen-bit cells by address: the written cells only, addresses strictly rising (`Memory.wf`). An address that is
not listed holds nothing: a RAM cell nothing has written, an address without an instruction. -/
abbrev Memory := List (Nat × Word)

/-- The architectural state: general registers, pc, flags and RAM (10_state.md), and what is fixed at launch. -/
structure State where
  /-- The general registers R0 to R7 (10_state.md R10, R11). -/
  regs : Vector Word 8
  /-- The Program Counter, counting instruction words (10_state.md R12). -/
  pc : Word
  /-- The Status Register (10_state.md R14). -/
  flags : Flags
  /-- The RAM cells that have been written or given by the launch state (20_memory.md R20, R21). -/
  ram : Memory
  /-- The program text, fixed at launch (20_memory.md R29). The model's own field (assumption 4): no step writes it. -/
  prog : Memory
  /-- The end-of-run address END_PC, fixed at launch (70_reset_and_hazards.md R72). The model's own field (assumption 6). -/
  endPc : Option Word
  /-- The parameters, fixed at launch (00_scope.md R4). The model's own field (assumption 5): no step writes it. -/
  cfg : Config
  deriving DecidableEq, Repr

/-- Why a step does not exist: the spec's stuck states and its end of run (60_exceptions.md R67). Nothing changes. -/
inductive Fault where
  /-- Raised by the fetch: no instruction stands at the pc (20_memory.md R29). Safe: the hardware would run whatever is there. -/
  | noInstruction (pc : Word)
  /-- Raised by LW and SW: the address is at or beyond RAM_WORDS (20_memory.md R20). Safe: the spec gives no step. -/
  | ramOutOfRange (addr : Word)
  /-- Raised by LW and SW under MEM_ORG = unified: the address holds program text (20_memory.md R29). Safe: the spec calls it stuck. -/
  | programText (addr : Word)
  /-- Raised by the fetch: the pc is END_PC, where a run ends by convention (70_reset_and_hazards.md R72). Safe: the
  hardware would go on. -/
  | endOfRun
  deriving DecidableEq, Repr

/-- Words to which the spec gives no meaning (60_exceptions.md R62). -/
inductive Refusal where
  /-- Raised by an arm of exec whose instruction has no meaning yet; no arm is left. Safe. -/
  | notModelled (mnemonic : String)
  /-- Raised by the step on a word whose opcode has no instruction (30_encoding.md R38). Safe: the spec refuses it. -/
  | unassignedOpcode (op : BitVec 5)
  /-- Raised by the step on a JMP or SETC word with a code above 8, and by JMP and SETC themselves on such a
  code (45_jump.md R53, R56, 44_compare_setc.md R51). Safe: the spec refuses it. -/
  | reservedCondition (code : BitVec 8)
  deriving DecidableEq, Repr

/-- The machine right after reset under the parameters `c` (10_state.md R19, 70_reset_and_hazards.md R70): pc at RESET_PC,
nothing written in RAM, no program loaded. The registers and flags hold the values of assumptions 1 and 2. -/
def State.resetWith (c : Config) : State where
  regs := Vector.ofFn resetReg
  pc := c.resetPc
  flags := { ZF := resetFlag, SF := resetFlag, OF := resetFlag }
  ram := []
  prog := []
  endPc := none
  cfg := c

/-- The machine right after reset under the spec's values of its parameters (00_scope.md R4). -/
def State.reset : State := State.resetWith defaultConfig

end Sys2Proof.Machine
end

