-- ==== Sys2Proof/Machine/Operands.lean ====
section
/-! DEFINITION. Operand forms: the two immediates, the effective address, and which registers and flags an instruction
reads and writes (spec/30_encoding.md R32, R35, spec/20_memory.md R22, spec/10_state.md R11, R14). -/

namespace Sys2Proof.Machine

/-- `sext_16(Simm5)` (00_scope.md R5, 30_encoding.md R32). -/
def sext16 (simm5 : BitVec 5) : Word := simm5.signExtend 16

/-- `zext_16(Imm8)` (00_scope.md R5, 30_encoding.md R32). -/
def zext16 (imm8 : BitVec 8) : Word := imm8.zeroExtend 16

/-- `ea = (x[Ra] + sext_16(Simm5)) mod 2^16` (20_memory.md R22). -/
def effectiveAddress (base : Word) (simm5 : BitVec 5) : Word := base + sext16 simm5

/-- SETC's result: 0x0001 or 0x0000 (44_compare_setc.md R51). -/
def boolWord (b : Bool) : Word := if b then 0x0001 else 0x0000

/-- The general registers an instruction reads (10_state.md R11). -/
def readRegs : Instr → List RegIdx
  | .nop => []
  | .lw _ ra _ => [ra]
  | .sw rd ra _ => [rd, ra]
  | .movr _ ra => [ra]
  | .movi _ _ => []
  | .add rd ra => [rd, ra]
  | .addi rd _ => [rd]
  | .subi rd _ => [rd]
  | .jmp rd _ => [rd]
  | .cmp rd ra => [rd, ra]
  | .setc _ _ => []
  | .je rd => [rd]
  | .jne rd => [rd]
  | .jg rd => [rd]
  | .jge rd => [rd]
  | .jl rd => [rd]
  | .jle rd => [rd]
  | .js rd => [rd]
  | .jns rd => [rd]

/-- The general register an instruction writes (10_state.md R11). -/
def writtenReg : Instr → Option RegIdx
  | .nop => none
  | .lw rd _ _ => some rd
  | .sw _ _ _ => none
  | .movr rd _ => some rd
  | .movi rd _ => some rd
  | .add rd _ => some rd
  | .addi rd _ => some rd
  | .subi rd _ => some rd
  | .jmp _ _ => none
  | .cmp _ _ => none
  | .setc rd _ => some rd
  | .je _ => none
  | .jne _ => none
  | .jg _ => none
  | .jge _ => none
  | .jl _ => none
  | .jle _ => none
  | .js _ => none
  | .jns _ => none

/-- Whether an instruction writes the flags: CMP alone (10_state.md R14). -/
def writesFlags : Instr → Bool
  | .nop => false
  | .lw _ _ _ => false
  | .sw _ _ _ => false
  | .movr _ _ => false
  | .movi _ _ => false
  | .add _ _ => false
  | .addi _ _ => false
  | .subi _ _ => false
  | .jmp _ _ => false
  | .cmp _ _ => true
  | .setc _ _ => false
  | .je _ => false
  | .jne _ => false
  | .jg _ => false
  | .jge _ => false
  | .jl _ => false
  | .jle _ => false
  | .js _ => false
  | .jns _ => false

/-- Whether an instruction reads the flags: JMP and SETC with a code other than 0 (10_state.md R14). -/
def readsFlags : Instr → Bool
  | .nop => false
  | .lw _ _ _ => false
  | .sw _ _ _ => false
  | .movr _ _ => false
  | .movi _ _ => false
  | .add _ _ => false
  | .addi _ _ => false
  | .subi _ _ => false
  | .jmp _ imm8 => imm8 != 0
  | .cmp _ _ => false
  | .setc _ imm8 => imm8 != 0
  | .je _ => true
  | .jne _ => true
  | .jg _ => true
  | .jge _ => true
  | .jl _ => true
  | .jle _ => true
  | .js _ => true
  | .jns _ => true

/-- The target register and condition code of a jump under any of its names; none for every other instruction
(45_jump.md R53, R55). -/
def jumpOperands : Instr → Option (RegIdx × BitVec 8)
  | .nop => none
  | .lw _ _ _ => none
  | .sw _ _ _ => none
  | .movr _ _ => none
  | .movi _ _ => none
  | .add _ _ => none
  | .addi _ _ => none
  | .subi _ _ => none
  | .jmp rd imm8 => some (rd, imm8)
  | .cmp _ _ => none
  | .setc _ _ => none
  | .je rd => some (rd, 1)
  | .jne rd => some (rd, 2)
  | .jg rd => some (rd, 3)
  | .jge rd => some (rd, 4)
  | .jl rd => some (rd, 5)
  | .jle rd => some (rd, 6)
  | .js rd => some (rd, 7)
  | .jns rd => some (rd, 8)

end Sys2Proof.Machine
end

