-- ==== Sys2Proof/Machine/Flags.lean ====
section
/-! DEFINITION. The flag function of CMP (spec/44_compare_setc.md R50) and the condition function of JMP and SETC
(spec/45_jump.md R54). -/

namespace Sys2Proof.Machine

/-- `cmpFlags(a, b)` as the spec defines it, from `r = (a - b) mod 2^16` (44_compare_setc.md R50). -/
def cmpFlags (a b : Word) : Flags where
  ZF := a - b == 0
  SF := (a - b).msb
  OF := a.msb != b.msb && (a - b).msb != a.msb

/-- The flag function of CMP that the parameters give, cmpFlags of 00_scope.md R4 as a configuration function
(44_compare_setc.md R50): the flags listed for the operand pair, else those of `cmpFlags`. -/
def configuredFlags (c : Config) (a b : Word) : Flags :=
  match c.cmpOverrides.lookup (a, b) with
  | some f => f
  | none => cmpFlags a b

/-- `cond(c)`, the condition that code `c` selects, compared as a whole 8-bit number; none for the reserved codes 9 to
255 (45_jump.md R54, R56). -/
def flagCond (f : Flags) (code : BitVec 8) : Option Bool :=
  match code.toNat with
  | 0 => some true
  | 1 => some f.ZF
  | 2 => some (!f.ZF)
  | 3 => some (!f.ZF && f.SF == f.OF)
  | 4 => some (f.SF == f.OF)
  | 5 => some (f.SF != f.OF)
  | 6 => some (f.ZF || f.SF != f.OF)
  | 7 => some f.SF
  | 8 => some (!f.SF)
  | _ => none

end Sys2Proof.Machine
end

