-- ==== Sys2Proof/Machine/Ops.lean ====
section
/-! DEFINITION. The named operations over registers, pc, flags, RAM and program text that the meanings share
(spec/00_scope.md R6, spec/20_memory.md R20 to R29). The spec has no exception, so there is none to take (R60). -/

namespace Sys2Proof.Machine

/-! ### Sparse memory -/

/-- The cell at `a`, if one is listed. -/
def Memory.read : Memory → Word → Option Word
  | [], _ => none
  | (k, v) :: m, a => if k = a.toNat then some v else Memory.read m a

/-- The memory with the whole cell at `a` holding `v` and no other cell changed (20_memory.md R21). -/
def Memory.write : Memory → Word → Word → Memory
  | [], a, v => [(a.toNat, v)]
  | (k, u) :: m, a, v =>
    if a.toNat < k then (a.toNat, v) :: (k, u) :: m
    else if a.toNat = k then (k, v) :: m
    else (k, u) :: Memory.write m a v

/-- The canonical form: addresses strictly rise and are 16-bit addresses. An unlisted address holds nothing, so no entry
equals what an unlisted address holds. -/
abbrev Memory.wf (m : Memory) : Prop :=
  List.Pairwise (fun p q => p.1 < q.1) m ∧ ∀ p ∈ m, p.1 < 65536

/-! ### Registers, pc and flags (00_scope.md R6) -/

/-- `x[r]`. -/
def State.readReg (s : State) (r : RegIdx) : Word := s.regs[r]

/-- `x[r] <- v`. -/
def State.writeReg (s : State) (r : RegIdx) (v : Word) : State := { s with regs := s.regs.set r v }

/-- `pc <- t`. -/
def State.setPc (s : State) (t : Word) : State := { s with pc := t }

/-- `pc <- (pc + PC_STEP) mod 2^16`, which is `pc + 1` by the spec's PC_STEP = 1 (10_state.md R13, 00_scope.md R4). -/
def State.advance (s : State) : State := s.setPc (s.pc + s.cfg.pcStep)

/-- `(ZF, SF, OF) <- f`. -/
def State.setFlags (s : State) (f : Flags) : State := { s with flags := f }

/-- The end of every instruction that writes one register: write it, then advance the pc (00_scope.md R7). -/
def State.finishWith (s : State) (rd : RegIdx) (v : Word) : Host.Outcome State Fault Refusal :=
  .next (s.writeReg rd v).advance

/-! ### RAM (20_memory.md R20 to R25) -/

/-- `MemRead(a, 16)` for an address that may be accessed: the listed cell, else the cell's launch value, which is a free
value (20_memory.md R21, assumption 3). -/
def State.ramValue (s : State) (a : Word) : Word := (s.ram.read a).getD (Config.launchRam a)

/-- Why LW and SW have no step at address `a`, if they have none: RAM has no such cell (20_memory.md R20), or, under
MEM_ORG = unified, the address holds program text (R29). -/
def State.accessFault (s : State) (a : Word) : Option Fault :=
  if s.cfg.ramWords ≤ a.toNat then some (.ramOutOfRange a)
  else match s.cfg.memOrg with
    | .separate => none
    | .unified => if (s.prog.read a).isSome then some (.programText a) else none

/-- The read of LW (20_memory.md R21). -/
def State.loadWord (s : State) (a : Word) : Except Fault Word :=
  match s.accessFault a with
  | some f => .error f
  | none => .ok (s.ramValue a)

/-- The write of SW, `MemWrite(a, 16, v)` (20_memory.md R21). -/
def State.storeWord (s : State) (a v : Word) : Except Fault State :=
  match s.accessFault a with
  | some f => .error f
  | none => .ok { s with ram := s.ram.write a v }

/-! ### Fetch (20_memory.md R29) -/

/-- The instruction word at address `a`, if one exists. Under MEM_ORG = unified the one array holds the program text and,
elsewhere, the RAM cells that have been written. -/
def State.instructionAt (s : State) (a : Word) : Option Word :=
  match s.cfg.memOrg with
  | .separate => s.prog.read a
  | .unified =>
    if s.cfg.ramWords ≤ a.toNat then none
    else match s.prog.read a with
      | some w => some w
      | none => s.ram.read a

/-- The word the machine fetches next. At END_PC no instruction is fetched (70_reset_and_hazards.md R72). -/
def State.fetch (s : State) : Except Fault Word :=
  if s.endPc = some s.pc then .error .endOfRun
  else match s.instructionAt s.pc with
    | some w => .ok w
    | none => .error (.noInstruction s.pc)

/-- The state with `w` as the program text at the pc, and the pc not the end of the run. -/
def State.placeInstruction (s : State) (w : Word) : State :=
  { s with
    prog := s.prog.write s.pc w
    endPc := if s.endPc = some s.pc then none else s.endPc }

/-- The refusal of an invalid word (60_exceptions.md R62). -/
def refusalOf : Invalid → Refusal
  | .unassignedOpcode op => .unassignedOpcode op
  | .reservedCondition code => .reservedCondition code

/-! ### Jumping -/

/-- JMP with condition code `code` to the address in `rd` (45_jump.md R53): the whole register is the target. -/
def State.jumpOn (s : State) (code : BitVec 8) (rd : RegIdx) : Host.Outcome State Fault Refusal :=
  match flagCond s.flags code with
  | some true => .next (s.setPc (s.readReg rd))
  | some false => .next s.advance
  | none => .refused (.reservedCondition code)

end Sys2Proof.Machine
end

