-- ==== Sys2Proof/Machine/Arith.lean ====
section
/-! DEFINITION. ADD, ADDI and SUBI: arithmetic modulo 2^16 that writes no flag (spec/43_arith.md R45 to R48). -/

namespace Sys2Proof.Machine

/-- ADD: `x[Rd] <- (x[Rd] + x[Ra]) mod 2^16` (43_arith.md R45). -/
def execAdd (rd ra : RegIdx) (s : State) : Host.Outcome State Fault Refusal :=
  s.finishWith rd (s.readReg rd + s.readReg ra)

/-- ADDI: `x[Rd] <- (x[Rd] + zext_16(Imm8)) mod 2^16` (43_arith.md R46). -/
def execAddi (rd : RegIdx) (imm8 : BitVec 8) (s : State) : Host.Outcome State Fault Refusal :=
  s.finishWith rd (s.readReg rd + zext16 imm8)

/-- SUBI: `x[Rd] <- (x[Rd] - zext_16(Imm8)) mod 2^16` (43_arith.md R47). -/
def execSubi (rd : RegIdx) (imm8 : BitVec 8) (s : State) : Host.Outcome State Fault Refusal :=
  s.finishWith rd (s.readReg rd - zext16 imm8)

end Sys2Proof.Machine
end

