-- ==== Sys2Proof/Machine/CompareSetc.lean ====
section
/-! DEFINITION. CMP and SETC (spec/44_compare_setc.md R49 to R51). -/

namespace Sys2Proof.Machine

/-- CMP: `(ZF, SF, OF) <- cmpFlags(x[Rd], x[Ra])`, with the flag function the parameters give; no general register is
written (44_compare_setc.md R49). -/
def execCmp (rd ra : RegIdx) (s : State) : Host.Outcome State Fault Refusal :=
  .next (s.setFlags (configuredFlags s.cfg (s.readReg rd) (s.readReg ra))).advance

/-- SETC: `x[Rd]` becomes 0x0001 or 0x0000 by `cond(Imm8)`; a code above 8 is refused (44_compare_setc.md R51). -/
def execSetc (rd : RegIdx) (imm8 : BitVec 8) (s : State) : Host.Outcome State Fault Refusal :=
  match flagCond s.flags imm8 with
  | some b => s.finishWith rd (boolWord b)
  | none => .refused (.reservedCondition imm8)

end Sys2Proof.Machine
end

