-- ==== Sys2Proof/Machine/Jump.lean ====
section
/-! DEFINITION. JMP and its conditional spellings (spec/45_jump.md R53 to R56). -/

namespace Sys2Proof.Machine

/-- JMP: `pc <- x[Rd]` if `cond(Imm8)`, else the pc advances; a code above 8 is refused (45_jump.md R53). -/
def execJmp (rd : RegIdx) (imm8 : BitVec 8) (s : State) : Host.Outcome State Fault Refusal := s.jumpOn imm8 rd

/-- JE: JMP with code 1, taken when ZF=1 (45_jump.md R55). -/
def execJe (rd : RegIdx) (s : State) : Host.Outcome State Fault Refusal := s.jumpOn 1 rd

/-- JNE: JMP with code 2, taken when ZF=0 (45_jump.md R55). -/
def execJne (rd : RegIdx) (s : State) : Host.Outcome State Fault Refusal := s.jumpOn 2 rd

/-- JG: JMP with code 3, taken when ZF=0 and SF=OF (45_jump.md R55). -/
def execJg (rd : RegIdx) (s : State) : Host.Outcome State Fault Refusal := s.jumpOn 3 rd

/-- JGE: JMP with code 4, taken when SF=OF (45_jump.md R55). -/
def execJge (rd : RegIdx) (s : State) : Host.Outcome State Fault Refusal := s.jumpOn 4 rd

/-- JL: JMP with code 5, taken when SF<>OF (45_jump.md R55). -/
def execJl (rd : RegIdx) (s : State) : Host.Outcome State Fault Refusal := s.jumpOn 5 rd

/-- JLE: JMP with code 6, taken when ZF=1 or SF<>OF (45_jump.md R55). -/
def execJle (rd : RegIdx) (s : State) : Host.Outcome State Fault Refusal := s.jumpOn 6 rd

/-- JS: JMP with code 7, taken when SF=1 (45_jump.md R55). -/
def execJs (rd : RegIdx) (s : State) : Host.Outcome State Fault Refusal := s.jumpOn 7 rd

/-- JNS: JMP with code 8, taken when SF=0 (45_jump.md R55). -/
def execJns (rd : RegIdx) (s : State) : Host.Outcome State Fault Refusal := s.jumpOn 8 rd

end Sys2Proof.Machine
end

