-- ==== Sys2Proof/Machine/LoadStore.lean ====
section
/-! DEFINITION. LW and SW (spec/41_load_store.md R41, R42). -/

namespace Sys2Proof.Machine

/-- LW: `x[Rd] <- MemRead(ea, 16)`, the address from the old `x[Ra]` (41_load_store.md R41). -/
def execLw (rd ra : RegIdx) (simm5 : BitVec 5) (s : State) : Host.Outcome State Fault Refusal :=
  match s.loadWord (effectiveAddress (s.readReg ra) simm5) with
  | .ok v => s.finishWith rd v
  | .error f => .fault f

/-- SW: `MemWrite(ea, 16, x[Rd])` (41_load_store.md R42). -/
def execSw (rd ra : RegIdx) (simm5 : BitVec 5) (s : State) : Host.Outcome State Fault Refusal :=
  match s.storeWord (effectiveAddress (s.readReg ra) simm5) (s.readReg rd) with
  | .ok t => .next t.advance
  | .error f => .fault f

end Sys2Proof.Machine
end

