-- ==== Sys2Proof/Machine/Move.lean ====
section
/-! DEFINITION. MOVR and MOVI (spec/42_move.md R43, R44). -/

namespace Sys2Proof.Machine

/-- MOVR: `x[Rd] <- x[Ra]` (42_move.md R43). -/
def execMovr (rd ra : RegIdx) (s : State) : Host.Outcome State Fault Refusal :=
  s.finishWith rd (s.readReg ra)

/-- MOVI: `x[Rd] <- zext_16(Imm8)` (42_move.md R44). -/
def execMovi (rd : RegIdx) (imm8 : BitVec 8) (s : State) : Host.Outcome State Fault Refusal :=
  s.finishWith rd (zext16 imm8)

end Sys2Proof.Machine
end

