-- ==== Sys2Proof/Machine/Nop.lean ====
section
/-! DEFINITION. NOP (spec/40_nop.md R40). -/

namespace Sys2Proof.Machine

/-- NOP: only the pc advances (40_nop.md R40). -/
def execNop (s : State) : Host.Outcome State Fault Refusal := .next s.advance

end Sys2Proof.Machine
end

