-- ==== Sys2Proof/Machine/Dispatch.lean ====
section
/-! DEFINITION. The one dispatch from an instruction to its meaning. -/

namespace Sys2Proof.Machine

def exec (i : Instr) (s : State) : Host.Outcome State Fault Refusal :=
  match i with
  | .nop => Sys2Proof.Machine.execNop s
  | .lw rd ra simm5 => Sys2Proof.Machine.execLw rd ra simm5 s
  | .sw rd ra simm5 => Sys2Proof.Machine.execSw rd ra simm5 s
  | .movr rd ra => Sys2Proof.Machine.execMovr rd ra s
  | .movi rd imm8 => Sys2Proof.Machine.execMovi rd imm8 s
  | .add rd ra => Sys2Proof.Machine.execAdd rd ra s
  | .addi rd imm8 => Sys2Proof.Machine.execAddi rd imm8 s
  | .subi rd imm8 => Sys2Proof.Machine.execSubi rd imm8 s
  | .jmp rd imm8 => Sys2Proof.Machine.execJmp rd imm8 s
  | .cmp rd ra => Sys2Proof.Machine.execCmp rd ra s
  | .setc rd imm8 => Sys2Proof.Machine.execSetc rd imm8 s
  | .je rd => Sys2Proof.Machine.execJe rd s
  | .jne rd => Sys2Proof.Machine.execJne rd s
  | .jg rd => Sys2Proof.Machine.execJg rd s
  | .jge rd => Sys2Proof.Machine.execJge rd s
  | .jl rd => Sys2Proof.Machine.execJl rd s
  | .jle rd => Sys2Proof.Machine.execJle rd s
  | .js rd => Sys2Proof.Machine.execJs rd s
  | .jns rd => Sys2Proof.Machine.execJns rd s

end Sys2Proof.Machine
end

