-- ==== Sys2Proof/Machine/Step.lean ====
section
/-! DEFINITION. One step of the machine: fetch, decode, execute (spec/60_exceptions.md R67). -/

namespace Sys2Proof.Machine

/-- One whole instruction (70_reset_and_hazards.md R75). -/
def step (s : State) : Host.Outcome State Fault Refusal :=
  match s.fetch with
  | .error f => .fault f
  | .ok w =>
    match decode s.cfg w with
    | .ok i => exec i s
    | .error e => .refused (refusalOf e)

/-- The state whose next step fetches the word that spec/opcode_table.json numbers as `w`: the load of a program of that
one word at the pc (assumption 4). -/
def State.withFetchWord (s : State) (nbits w : Nat) : State := s.placeInstruction (tableWord nbits w)

end Sys2Proof.Machine
end

