-- ==== Sys2Proof/Machine/Assembly.lean ====
section
/-! DEFINITION. The assembly lines the spec transcribes (spec/30_encoding.md R39), as data: a mnemonic and the operands in
the printed order, each with its sigil. No step reads them. -/

namespace Sys2Proof

/-- The mnemonics of spec/opcode_table.json. -/
inductive Mnemonic where
  | NOP | LW | SW | MOVR | MOVI | ADD | ADDI | SUBI | JMP | CMP | SETC
  | JE | JNE | JG | JGE | JL | JLE | JS | JNS
  deriving DecidableEq, Repr

/-- An operand as an Assembly line prints it (30_encoding.md R39). -/
inductive AsmOperand where
  /-- `%Rn`, in MOVR, MOVI, ADD, ADDI, SUBI and SETC. -/
  | sigilReg (r : RegIdx)
  /-- `Rn`, in LW, SW, CMP and JMP. -/
  | plainReg (r : RegIdx)
  /-- `$n`, in MOVI, ADDI, SUBI and SETC. -/
  | sigilImm (imm8 : BitVec 8)
  /-- `n`, the condition code of JMP. -/
  | plainImm (imm8 : BitVec 8)
  /-- `+4(Rn)`, the signed offset and base of LW and SW. -/
  | offsetBase (simm5 : BitVec 5) (base : RegIdx)
  deriving DecidableEq, Repr

/-- One line of assembly. -/
structure AsmLine where
  mnemonic : Mnemonic
  operands : List AsmOperand
  deriving DecidableEq, Repr

/-- The line of an instruction, operands in the order of the printed line; MOVI's line is the spec's (30_encoding.md R39,
90_conflicts.md C3). -/
def Instr.assembly : Instr → AsmLine
  | .nop => ⟨.NOP, []⟩
  | .lw rd ra simm5 => ⟨.LW, [.plainReg rd, .offsetBase simm5 ra]⟩
  | .sw rd ra simm5 => ⟨.SW, [.plainReg rd, .offsetBase simm5 ra]⟩
  | .movr rd ra => ⟨.MOVR, [.sigilReg ra, .sigilReg rd]⟩
  | .movi rd imm8 => ⟨.MOVI, [.sigilImm imm8, .sigilReg rd]⟩
  | .add rd ra => ⟨.ADD, [.sigilReg rd, .sigilReg ra]⟩
  | .addi rd imm8 => ⟨.ADDI, [.sigilImm imm8, .sigilReg rd]⟩
  | .subi rd imm8 => ⟨.SUBI, [.sigilImm imm8, .sigilReg rd]⟩
  | .jmp rd imm8 => ⟨.JMP, [.plainReg rd, .plainImm imm8]⟩
  | .cmp rd ra => ⟨.CMP, [.plainReg rd, .plainReg ra]⟩
  | .setc rd imm8 => ⟨.SETC, [.sigilImm imm8, .sigilReg rd]⟩
  | .je rd => ⟨.JE, [.plainReg rd]⟩
  | .jne rd => ⟨.JNE, [.plainReg rd]⟩
  | .jg rd => ⟨.JG, [.plainReg rd]⟩
  | .jge rd => ⟨.JGE, [.plainReg rd]⟩
  | .jl rd => ⟨.JL, [.plainReg rd]⟩
  | .jle rd => ⟨.JLE, [.plainReg rd]⟩
  | .js rd => ⟨.JS, [.plainReg rd]⟩
  | .jns rd => ⟨.JNS, [.plainReg rd]⟩

/-- The instruction a line stands for, before its operand values are checked. `JMP Rd` with the condition omitted is
`JMP Rd, 0` (30_encoding.md R39). -/
def AsmLine.parse (l : AsmLine) : Option Instr :=
  match l.mnemonic, l.operands with
  | .NOP, [] => some .nop
  | .LW, [.plainReg rd, .offsetBase simm5 ra] => some (.lw rd ra simm5)
  | .SW, [.plainReg rd, .offsetBase simm5 ra] => some (.sw rd ra simm5)
  | .MOVR, [.sigilReg ra, .sigilReg rd] => some (.movr rd ra)
  | .MOVI, [.sigilImm imm8, .sigilReg rd] => some (.movi rd imm8)
  | .ADD, [.sigilReg rd, .sigilReg ra] => some (.add rd ra)
  | .ADDI, [.sigilImm imm8, .sigilReg rd] => some (.addi rd imm8)
  | .SUBI, [.sigilImm imm8, .sigilReg rd] => some (.subi rd imm8)
  | .JMP, [.plainReg rd, .plainImm imm8] => some (.jmp rd imm8)
  | .JMP, [.plainReg rd] => some (.jmp rd 0)
  | .CMP, [.plainReg rd, .plainReg ra] => some (.cmp rd ra)
  | .SETC, [.sigilImm imm8, .sigilReg rd] => some (.setc rd imm8)
  | .JE, [.plainReg rd] => some (.je rd)
  | .JNE, [.plainReg rd] => some (.jne rd)
  | .JG, [.plainReg rd] => some (.jg rd)
  | .JGE, [.plainReg rd] => some (.jge rd)
  | .JL, [.plainReg rd] => some (.jl rd)
  | .JLE, [.plainReg rd] => some (.jle rd)
  | .JS, [.plainReg rd] => some (.js rd)
  | .JNS, [.plainReg rd] => some (.jns rd)
  | _, _ => none

/-- The instruction a line assembles to: operands of the printed form, with a condition code of 0..8 (45_jump.md R53). -/
def AsmLine.assemble (l : AsmLine) : Option Instr := l.parse.filter Instr.wellFormed

end Sys2Proof
end

