-- ==== Sys2Proof/Machine/Timing.lean ====
section
/-! DEFINITION. The clock-cycle table of the source, transcribed as data (spec/70_reset_and_hazards.md R74). No step reads
it and the model counts no cycles (R75). -/

namespace Sys2Proof

/-- The stage names of the "Clock cycles" lines; EXEC and EXECUTE are one stage (70_reset_and_hazards.md R74). -/
inductive Stage where
  | FETCH | DECODE | READ | EXECUTE | RAM | WRITE | BRANCH
  deriving DecidableEq, Repr

/-- The stages as printed (70_reset_and_hazards.md R74). -/
def Instr.stages : Instr → List Stage
  | .nop => [.FETCH, .DECODE]
  | .lw _ _ _ => [.FETCH, .DECODE, .READ, .EXECUTE, .RAM, .WRITE]
  | .sw _ _ _ => [.FETCH, .DECODE, .READ, .EXECUTE, .RAM, .WRITE]
  | .movr _ _ => [.FETCH, .DECODE, .READ, .EXECUTE, .WRITE]
  | .movi _ _ => [.FETCH, .DECODE, .READ, .EXECUTE, .WRITE]
  | .add _ _ => [.FETCH, .DECODE, .READ, .EXECUTE, .WRITE]
  | .addi _ _ => [.FETCH, .DECODE, .READ, .EXECUTE, .WRITE]
  | .subi _ _ => [.FETCH, .DECODE, .READ, .EXECUTE, .WRITE]
  | .jmp _ _ => [.FETCH, .DECODE, .READ, .EXECUTE, .BRANCH]
  | .cmp _ _ => [.FETCH, .DECODE, .READ, .EXECUTE, .WRITE]
  | .setc _ _ => [.FETCH, .DECODE, .READ, .EXECUTE, .WRITE]
  | .je _ => [.FETCH, .DECODE, .READ, .EXECUTE, .BRANCH]
  | .jne _ => [.FETCH, .DECODE, .READ, .EXECUTE, .BRANCH]
  | .jg _ => [.FETCH, .DECODE, .READ, .EXECUTE, .BRANCH]
  | .jge _ => [.FETCH, .DECODE, .READ, .EXECUTE, .BRANCH]
  | .jl _ => [.FETCH, .DECODE, .READ, .EXECUTE, .BRANCH]
  | .jle _ => [.FETCH, .DECODE, .READ, .EXECUTE, .BRANCH]
  | .js _ => [.FETCH, .DECODE, .READ, .EXECUTE, .BRANCH]
  | .jns _ => [.FETCH, .DECODE, .READ, .EXECUTE, .BRANCH]

/-- The clock cycles as printed (70_reset_and_hazards.md R74). -/
def Instr.cycles : Instr → Nat
  | .nop => 2
  | .lw _ _ _ => 6
  | .sw _ _ _ => 6
  | .movr _ _ => 5
  | .movi _ _ => 5
  | .add _ _ => 5
  | .addi _ _ => 5
  | .subi _ _ => 5
  | .jmp _ _ => 5
  | .cmp _ _ => 5
  | .setc _ _ => 5
  | .je _ => 5
  | .jne _ => 5
  | .jg _ => 5
  | .jge _ => 5
  | .jl _ => 5
  | .jle _ => 5
  | .js _ => 5
  | .jns _ => 5

end Sys2Proof
end

