-- ==== Sys2Proof/Safety.lean ====
section
/-! DEFINITION. The terms claims are stated in: what an instruction leaves alone, the invariant of the machine, runs, and runs
that read only what has been written (spec/70_reset_and_hazards.md R71). -/

namespace Sys2Proof.Machine

/-! ### Frames -/

/-- Every general register of `t` holds what it holds in `s`. -/
def SameRegs (s t : State) : Prop := ∀ r, t.readReg r = s.readReg r

/-- Every general register but `rd` of `t` holds what it holds in `s`. -/
def SameRegsBut (rd : RegIdx) (s t : State) : Prop := ∀ r, r ≠ rd → t.readReg r = s.readReg r

/-- Every RAM cell of `t` holds what it holds in `s`, the unwritten ones included. -/
def SameRam (s t : State) : Prop := ∀ a, t.ram.read a = s.ram.read a

/-- What is fixed at launch is the same: program text, END_PC and parameters (10_state.md R18, 00_scope.md R4). -/
def SameLaunch (s t : State) : Prop := t.prog = s.prog ∧ t.endPc = s.endPc ∧ t.cfg = s.cfg

/-- The pc has advanced by one instruction: by PC_STEP (00_scope.md R4), which by the spec's value of it is 1, so that the
pc becomes `(pc + 1) mod 2^16` (10_state.md R13). -/
def PcAdvanced (s t : State) : Prop := t.pc = s.pc + s.cfg.pcStep ∧ (s.cfg.pcStep = 1 → t.pc = s.pc + 1)

/-- LW and SW have a step at address `a`: RAM has the cell (20_memory.md R20) and, under MEM_ORG = unified, no program
text stands there (R29). -/
def Accessible (s : State) (a : Word) : Prop :=
  a.toNat < s.cfg.ramWords ∧ (s.cfg.memOrg = .unified → s.prog.read a = none)

/-- `exec i s` completes as an instruction that writes the general register `rd` and the pc: `rd` gets `v`, the pc advances,
nothing else changes. -/
def WritesRegister (i : Instr) (s : State) (rd : RegIdx) (v : Word) : Prop :=
  ∃ t, exec i s = .next t ∧ t.readReg rd = v ∧ SameRegsBut rd s t ∧ PcAdvanced s t ∧ t.flags = s.flags ∧
    SameRam s t ∧ SameLaunch s t

/-- `exec i s` completes as a jump to the content of `rd` that is taken exactly when `taken` holds: the pc becomes `x[Rd]`
or advances, nothing else changes (45_jump.md R53). -/
def JumpsWhen (i : Instr) (s : State) (rd : RegIdx) (taken : Prop) : Prop :=
  ∃ t, exec i s = .next t ∧ (taken → t.pc = s.readReg rd) ∧ (¬taken → PcAdvanced s t) ∧ SameRegs s t ∧
    t.flags = s.flags ∧ SameRam s t ∧ SameLaunch s t

/-! ### The invariant -/

/-- What every state of a run from a well-formed launch state satisfies: both memories are in canonical form, no RAM cell
stands beyond RAM_WORDS (20_memory.md R20), and under MEM_ORG = unified no RAM cell is written over program text (R29). -/
structure State.Inv (s : State) : Prop where
  ram_wf : s.ram.wf
  prog_wf : s.prog.wf
  ram_in_range : ∀ a, (s.ram.read a).isSome → a.toNat < s.cfg.ramWords
  text_apart : s.cfg.memOrg = .unified → ∀ a, (s.ram.read a).isSome → s.prog.read a = none

/-- The flags are a combination CMP can leave: ZF = 1 implies SF = 0 and OF = 0 (44_compare_setc.md R50). -/
def Flags.Coherent (f : Flags) : Prop := f.ZF = true → f.SF = false ∧ f.OF = false

/-! ### Named properties of the flag function (44_compare_setc.md R50) -/

/-- `ZF = 1` iff `a = b`, which R50 calls forced by the source. -/
def ZeroFlagIsEquality (c : Config) : Prop := ∀ a b : Word, (configuredFlags c a b).ZF = true ↔ a = b

/-- `SF != OF` iff `signed(a) < signed(b)`, which R50 calls forced by the source up to the signed reading. -/
def FlagsOrderSigned (c : Config) : Prop :=
  ∀ a b : Word, (configuredFlags c a b).SF ≠ (configuredFlags c a b).OF ↔ a.toInt < b.toInt

/-- `SF = r[15]` of `r = (a - b) mod 2^16`, which R50 calls the spec's reading of "Signed". -/
def SignFlagIsBit15 (c : Config) : Prop :=
  ∀ a b : Word, (configuredFlags c a b).SF = (BitVec.ofInt 16 (a.toNat - b.toNat)).getLsbD 15

/-! ### Runs -/

/-- The next instruction of `s` is `i`: the word fetched at the pc decodes to it. -/
def NextInstr (s : State) (i : Instr) : Prop := ∃ w, s.fetch = .ok w ∧ decode s.cfg w = .ok i

/-- A run of steps from the first state to the second, none of them taken in a state where `avoid` holds. -/
inductive RunAvoiding (avoid : State → Prop) : State → State → Prop where
  | refl (s : State) : RunAvoiding avoid s s
  | tail {s t u : State} : RunAvoiding avoid s t → ¬avoid t → step t = .next u → RunAvoiding avoid s u

/-- The next instruction of `s` is a SW that stores to RAM cell `a`. -/
def StoresTo (a : Word) (s : State) : Prop :=
  ∃ rd ra simm5, NextInstr s (.sw rd ra simm5) ∧ effectiveAddress (s.readReg ra) simm5 = a

/-- The next instruction of `s` is a CMP. -/
def ComparesNext (s : State) : Prop := ∃ rd ra, NextInstr s (.cmp rd ra)

/-! ### Reading only what has been written (70_reset_and_hazards.md R71) -/

/-- The general registers, and whether the flags, that hold a value the program gave them. -/
structure Written where
  regs : List RegIdx
  flags : Bool
  deriving DecidableEq, Repr

/-- Nothing is written: the state of affairs at reset. -/
def Written.nothing : Written := { regs := [], flags := false }

/-- The instruction reads no unwritten register or flag. -/
def Written.Covers (w : Written) (i : Instr) : Prop :=
  (∀ r ∈ readRegs i, r ∈ w.regs) ∧ (readsFlags i = true → w.flags = true)

/-- What is written after the instruction. -/
def Written.after (w : Written) (i : Instr) : Written where
  regs := (writtenReg i).toList ++ w.regs
  flags := w.flags || writesFlags i

/-- The two states differ at most in unwritten registers and unwritten flags. -/
def AgreeOn (w : Written) (s t : State) : Prop :=
  s.pc = t.pc ∧ s.ram = t.ram ∧ SameLaunch s t ∧ (∀ r ∈ w.regs, s.readReg r = t.readReg r) ∧
    (w.flags = true → s.flags = t.flags)

/-- The two outcomes are two next states that agree, or one and the same stop. -/
def OutcomesAgree (w : Written) : Host.Outcome State Fault Refusal → Host.Outcome State Fault Refusal → Prop
  | .next s, .next t => AgreeOn w s t
  | .fault f, .fault g => f = g
  | .refused r, .refused q => r = q
  | _, _ => False

/-- A run from `s` to `s'` that starts with `w` written, reads only what is written, and ends with `w'` written. -/
inductive CleanRun (w : Written) (s : State) : Written → State → Prop where
  | refl : CleanRun w s w s
  | tail {w' : Written} {s' s'' : State} {i : Instr} : CleanRun w s w' s' → NextInstr s' i → w'.Covers i →
      step s' = .next s'' → CleanRun w s (w'.after i) s''

end Sys2Proof.Machine
end

