-- ==== Sys2Proof/Certificates/Slice0/Obligations.lean ====
section
/-! DEFINITION. The statements for the provers, from the numbered rules of spec/. In each, `t` is the state after. -/

open Sys2Proof Sys2Proof.Machine

/-! ### Words, fields and decoding (30_encoding.md) -/

/-- 30_encoding.md R31: the fields of a word, as numbers. -/
def Obligations.FieldsStandAtTheirBits : Prop :=
  ∀ w : Word, (opcodeOf w).toNat = w.toNat / 2 ^ 11 ∧ (rdOf w).val = w.toNat / 2 ^ 8 % 2 ^ 3 ∧
    (raOf w).val = w.toNat / 2 ^ 5 % 2 ^ 3 ∧ (simm5Of w).toNat = w.toNat % 2 ^ 5 ∧ (imm8Of w).toNat = w.toNat % 2 ^ 8

/-- 30_encoding.md R32: Simm5 is sign-extended and lies in -16..15, Imm8 is zero-extended and lies in 0..255. -/
def Obligations.ImmediatesAreExtended : Prop :=
  (∀ simm5 : BitVec 5, (sext16 simm5).toInt = simm5.toInt ∧ -16 ≤ (sext16 simm5).toInt ∧ (sext16 simm5).toInt ≤ 15) ∧
  (∀ imm8 : BitVec 8, (zext16 imm8).toNat = imm8.toNat ∧ (zext16 imm8).toNat ≤ 255)

/-- 95_test_vectors.md section 2.1, with a word of every family: worked words decode to what they stand for. That the word of
JMP R5, 8 is read as JNS R5 is the model's choice of spelling (assumption 7). -/
def Obligations.SampleWordsDecode : Prop :=
  decode defaultConfig 0x0000 = .ok .nop ∧ decode defaultConfig 0x0BF0 = .ok (.lw 3 7 0b10000) ∧
  decode defaultConfig 0x15DF = .ok (.sw 5 6 0b11111) ∧ decode defaultConfig 0x1A20 = .ok (.movr 2 1) ∧
  decode defaultConfig 0x23AB = .ok (.movi 3 0xAB) ∧ decode defaultConfig 0x4140 = .ok (.add 1 2) ∧
  decode defaultConfig 0x4CFF = .ok (.addi 4 255) ∧ decode defaultConfig 0x54FF = .ok (.subi 4 255) ∧
  decode defaultConfig 0x6940 = .ok (.cmp 1 2) ∧ decode defaultConfig 0xAB08 = .ok (.setc 3 8) ∧
  decode defaultConfig 0x6500 = .ok (.jmp 5 0) ∧ decode defaultConfig 0x6508 = .ok (.jns 5) ∧
  decode defaultConfig 0x2800 = .error (.unassignedOpcode 0b00101) ∧
  decode defaultConfig 0x6509 = .error (.reservedCondition 9)

/-- The ranges that the spec derives in 30_encoding.md R34, into which the opcode map divides the 65536 words. The range of
JMP and that of SETC hold their reserved condition codes too (R38); JMP words with codes 1..8 are read under the spelling the
model chose (assumption 7). -/
def Obligations.WordRangesDecode : Prop :=
  ∀ w : Word,
    (w.toNat < 0x0800 → decode defaultConfig w = .ok .nop) ∧
    (0x0800 ≤ w.toNat ∧ w.toNat < 0x1000 → decode defaultConfig w = .ok (.lw (rdOf w) (raOf w) (simm5Of w))) ∧
    (0x1000 ≤ w.toNat ∧ w.toNat < 0x1800 → decode defaultConfig w = .ok (.sw (rdOf w) (raOf w) (simm5Of w))) ∧
    (0x1800 ≤ w.toNat ∧ w.toNat < 0x2000 → decode defaultConfig w = .ok (.movr (rdOf w) (raOf w))) ∧
    (0x2000 ≤ w.toNat ∧ w.toNat < 0x2800 → decode defaultConfig w = .ok (.movi (rdOf w) (imm8Of w))) ∧
    (0x4000 ≤ w.toNat ∧ w.toNat < 0x4800 → decode defaultConfig w = .ok (.add (rdOf w) (raOf w))) ∧
    (0x4800 ≤ w.toNat ∧ w.toNat < 0x5000 → decode defaultConfig w = .ok (.addi (rdOf w) (imm8Of w))) ∧
    (0x5000 ≤ w.toNat ∧ w.toNat < 0x5800 → decode defaultConfig w = .ok (.subi (rdOf w) (imm8Of w))) ∧
    (0x6000 ≤ w.toNat ∧ w.toNat < 0x6800 → decode defaultConfig w =
      if w.toNat % 256 ≤ 8 then .ok (jumpSpelling (rdOf w) (imm8Of w)) else .error (.reservedCondition (imm8Of w))) ∧
    (0x6800 ≤ w.toNat ∧ w.toNat < 0x7000 → decode defaultConfig w = .ok (.cmp (rdOf w) (raOf w))) ∧
    (0xA800 ≤ w.toNat ∧ w.toNat < 0xB000 → decode defaultConfig w =
      if w.toNat % 256 ≤ 8 then .ok (.setc (rdOf w) (imm8Of w)) else .error (.reservedCondition (imm8Of w))) ∧
    ((0x2800 ≤ w.toNat ∧ w.toNat < 0x4000) ∨ (0x5800 ≤ w.toNat ∧ w.toNat < 0x6000) ∨
        (0x7000 ≤ w.toNat ∧ w.toNat < 0xA800) ∨ 0xB000 ≤ w.toNat →
      decode defaultConfig w = .error (.unassignedOpcode (opcodeOf w)))

/-- 30_encoding.md R36: whatever the open parameters are, opcode 00001 is LW and 01001 is ADDI; under parameters that
collide with no printed opcode, OP_SW is SW and OP_SUBI is SUBI; the spec's choice is 00010 and 01010. -/
def Obligations.CollidingOpcodesResolve : Prop :=
  (∀ (c : Config) (w : Word), opcodeOf w = 0b00001 → decode c w = .ok (.lw (rdOf w) (raOf w) (simm5Of w))) ∧
  (∀ (c : Config) (w : Word), opcodeOf w = 0b01001 → decode c w = .ok (.addi (rdOf w) (imm8Of w))) ∧
  (∀ (c : Config) (w : Word), c.Valid → opcodeOf w = c.opSw → decode c w = .ok (.sw (rdOf w) (raOf w) (simm5Of w))) ∧
  (∀ (c : Config) (w : Word), c.Valid → opcodeOf w = c.opSubi → decode c w = .ok (.subi (rdOf w) (imm8Of w))) ∧
  defaultConfig.Valid ∧ defaultConfig.opSw = 0b00010 ∧ defaultConfig.opSubi = 0b01010

/-- 30_encoding.md R37: a decoder ignores bits 10:0 of NOP and 4:0 of MOVR, ADD and CMP; an assembler emits zero there. -/
def Obligations.IgnoredBitsTakeNoPart : Prop :=
  (∀ (c : Config) (w : Word), opcodeOf w = 0b00000 → decode c w = .ok .nop) ∧
  (∀ (c : Config) (w v : Word), opcodeOf w ∈ [0b00011, 0b01000, 0b01101] → w >>> 5 = v >>> 5 → decode c w = decode c v) ∧
  (∀ c : Config, (encode c .nop).toNat % 2 ^ 11 = 0) ∧
  (∀ (c : Config) (rd ra : RegIdx), (encode c (.movr rd ra)).toNat % 2 ^ 5 = 0 ∧
    (encode c (.add rd ra)).toNat % 2 ^ 5 = 0 ∧ (encode c (.cmp rd ra)).toNat % 2 ^ 5 = 0)

/-- Decode and encode agree (30_encoding.md R31, R33, R37): under parameters that collide with no printed opcode, every
well-formed instruction is read back from its word, JMP with a code of 1..8 under the spelling of 45_jump.md R55 that the
model chose (assumption 7); and the instruction read back does what the one written does. -/
def Obligations.DecodeOfEncode : Prop :=
  ∀ (c : Config) (i : Instr), c.Valid → i.wellFormed = true →
    decode c (encode c i) = .ok i.canonical ∧ encode c i.canonical = encode c i ∧ (∀ s, exec i.canonical s = exec i s) ∧
    ((∀ rd code, i = .jmp rd code → code = 0) → i.canonical = i)

/-- Encode and decode agree (30_encoding.md R31, R33, R37): a word that decodes is the word of the instruction it decodes to,
but for ignored bits; and that instruction is well-formed and bears the spelling the model chose (assumption 7). -/
def Obligations.EncodeOfDecode : Prop :=
  ∀ (c : Config) (w : Word) (i : Instr), decode c w = .ok i →
    encode c i = w &&& i.significantBits ∧ i.wellFormed = true ∧ i.canonical = i

/-- 30_encoding.md R38, 60_exceptions.md R62: a word is invalid exactly when its opcode is unassigned or it is a JMP or SETC
word with a code above 8; a machine that fetches an invalid word refuses it, and no later step exists. -/
def Obligations.InvalidWordsAreRefused : Prop :=
  (∀ (c : Config) (w : Word), (∃ i, decode c w = .ok i) ∨ (∃ e, decode c w = .error e)) ∧
  (∀ (c : Config) (w : Word) (op : BitVec 5), decode c w = .error (.unassignedOpcode op) ↔
    op = opcodeOf w ∧ printedOperation (opcodeOf w) = none ∧ opcodeOf w ≠ c.opSw ∧ opcodeOf w ≠ c.opSubi) ∧
  (∀ w : Word, decode defaultConfig w = .error (.unassignedOpcode (opcodeOf w)) ↔
    opcodeOf w ∈ [0b00101, 0b00110, 0b00111, 0b01011, 0b01110, 0b01111, 0b10000, 0b10001, 0b10010, 0b10011, 0b10100,
      0b10110, 0b10111, 0b11000, 0b11001, 0b11010, 0b11011, 0b11100, 0b11101, 0b11110, 0b11111]) ∧
  (∀ (c : Config) (w : Word) (code : BitVec 8), decode c w = .error (.reservedCondition code) ↔
    code = imm8Of w ∧ 8 < code.toNat ∧ (opcodeOf w = 0b01100 ∨ opcodeOf w = 0b10101)) ∧
  (∀ (s : State) (w : Word) (e : Invalid), s.fetch = .ok w → decode s.cfg w = .error e →
    step s = .refused (refusalOf e) ∧ ∀ n, Host.Core.run core (n + 1) s = .refused (refusalOf e))

/-- 45_jump.md R56: JMP and SETC with a code of 9..255 are invalid as words, and refused as words and as instructions. -/
def Obligations.ReservedConditionsAreRefused : Prop :=
  (∀ (c : Config) (w : Word), (opcodeOf w = 0b01100 ∨ opcodeOf w = 0b10101) → 8 < (imm8Of w).toNat →
    decode c w = .error (.reservedCondition (imm8Of w))) ∧
  (∀ (s : State) (w : Word), s.fetch = .ok w → (opcodeOf w = 0b01100 ∨ opcodeOf w = 0b10101) → 8 < (imm8Of w).toNat →
    step s = .refused (.reservedCondition (imm8Of w))) ∧
  (∀ (s : State) (rd : RegIdx) (code : BitVec 8), 8 < code.toNat →
    exec (.jmp rd code) s = .refused (.reservedCondition code) ∧
    exec (.setc rd code) s = .refused (.reservedCondition code))

/-! ### The instructions, one by one: encoding, effect and frame -/

/-- 40_nop.md R40. -/
def Obligations.NopOnlyAdvancesPc : Prop :=
  (∀ (c : Config) (w : Word), w &&& 0xF800 = 0x0000 → decode c w = .ok .nop) ∧
  (∀ c : Config, encode c .nop = 0x0000) ∧
  ∀ s : State, ∃ t, exec .nop s = .next t ∧ PcAdvanced s t ∧ SameRegs s t ∧ t.flags = s.flags ∧ SameRam s t ∧
    SameLaunch s t

/-- 41_load_store.md R41. The address is formed from the old `x[Ra]`. A cell that nothing has written gives some value. -/
def Obligations.LwLoadsTheAddressedCell : Prop :=
  (∀ (c : Config) (w : Word), w &&& 0xF800 = 0x0800 → decode c w = .ok (.lw (rdOf w) (raOf w) (simm5Of w))) ∧
  (∀ rd ra simm5, (Instr.lw rd ra simm5).assembly = ⟨.LW, [.plainReg rd, .offsetBase simm5 ra]⟩) ∧
  ∀ (s : State) (rd ra : RegIdx) (simm5 : BitVec 5) (ea : Word), effectiveAddress (s.readReg ra) simm5 = ea →
    (Accessible s ea → ∀ v, s.ram.read ea = some v → WritesRegister (.lw rd ra simm5) s rd v) ∧
    (Accessible s ea → ∃ v, WritesRegister (.lw rd ra simm5) s rd v) ∧
    (s.cfg.ramWords ≤ ea.toNat → exec (.lw rd ra simm5) s = .fault (.ramOutOfRange ea))

/-- 41_load_store.md R41: what LW gives for a cell that nothing has written is the model's free value
(assumption 3), whatever that value is; the spec leaves it unspecified (20_memory.md R21). -/
def Obligations.LwOfUnwrittenCellGivesLaunchValue : Prop :=
  ∀ (s : State) (rd ra : RegIdx) (simm5 : BitVec 5) (ea : Word), effectiveAddress (s.readReg ra) simm5 = ea →
    Accessible s ea → s.ram.read ea = none → WritesRegister (.lw rd ra simm5) s rd (Config.launchRam ea)

/-- 41_load_store.md R42. -/
def Obligations.SwStoresToTheAddressedCell : Prop :=
  (∀ w : Word, w &&& 0xF800 = 0x1000 → decode defaultConfig w = .ok (.sw (rdOf w) (raOf w) (simm5Of w))) ∧
  (∀ (c : Config) (w : Word), c.Valid → opcodeOf w = c.opSw → decode c w = .ok (.sw (rdOf w) (raOf w) (simm5Of w))) ∧
  (∀ (c : Config) (w : Word) (rd ra : RegIdx) (simm5 : BitVec 5), opcodeOf w = 0b00001 →
    decode c w ≠ .ok (.sw rd ra simm5)) ∧
  (∀ rd ra simm5, (Instr.sw rd ra simm5).assembly = ⟨.SW, [.plainReg rd, .offsetBase simm5 ra]⟩) ∧
  ∀ (s : State) (rd ra : RegIdx) (simm5 : BitVec 5) (ea : Word), effectiveAddress (s.readReg ra) simm5 = ea →
    (Accessible s ea → ∃ t, exec (.sw rd ra simm5) s = .next t ∧ t.ram.read ea = some (s.readReg rd) ∧
      (∀ a, a ≠ ea → t.ram.read a = s.ram.read a) ∧ SameRegs s t ∧ PcAdvanced s t ∧ t.flags = s.flags ∧
      SameLaunch s t) ∧
    (s.cfg.ramWords ≤ ea.toNat → exec (.sw rd ra simm5) s = .fault (.ramOutOfRange ea)) ∧
    (ea.toNat < s.cfg.ramWords → s.cfg.memOrg = .unified → (s.prog.read ea).isSome →
      exec (.sw rd ra simm5) s = .fault (.programText ea))

/-- 42_move.md R43. -/
def Obligations.MovrCopiesARegister : Prop :=
  (∀ (c : Config) (w : Word), w &&& 0xF800 = 0x1800 → decode c w = .ok (.movr (rdOf w) (raOf w))) ∧
  (∀ rd ra, (Instr.movr rd ra).assembly = ⟨.MOVR, [.sigilReg ra, .sigilReg rd]⟩) ∧
  ∀ (s : State) (rd ra : RegIdx), WritesRegister (.movr rd ra) s rd (s.readReg ra)

/-- 42_move.md R44: bits 15:8 become zero. -/
def Obligations.MoviZeroExtends : Prop :=
  (∀ (c : Config) (w : Word), w &&& 0xF800 = 0x2000 → decode c w = .ok (.movi (rdOf w) (imm8Of w))) ∧
  (∀ rd imm8, (Instr.movi rd imm8).assembly = ⟨.MOVI, [.sigilImm imm8, .sigilReg rd]⟩) ∧
  ∀ (s : State) (rd : RegIdx) (imm8 : BitVec 8), WritesRegister (.movi rd imm8) s rd (BitVec.ofNat 16 imm8.toNat)

/-- 43_arith.md R45: the sum modulo 2^16, no flag. -/
def Obligations.AddWritesTheSum : Prop :=
  (∀ (c : Config) (w : Word), w &&& 0xF800 = 0x4000 → decode c w = .ok (.add (rdOf w) (raOf w))) ∧
  (∀ rd ra, (Instr.add rd ra).assembly = ⟨.ADD, [.sigilReg rd, .sigilReg ra]⟩) ∧
  ∀ (s : State) (rd ra : RegIdx),
    WritesRegister (.add rd ra) s rd (BitVec.ofNat 16 ((s.readReg rd).toNat + (s.readReg ra).toNat))

/-- 43_arith.md R46: the sum with the zero-extended immediate modulo 2^16, no flag. -/
def Obligations.AddiWritesTheSum : Prop :=
  (∀ (c : Config) (w : Word), w &&& 0xF800 = 0x4800 → decode c w = .ok (.addi (rdOf w) (imm8Of w))) ∧
  (∀ rd imm8, (Instr.addi rd imm8).assembly = ⟨.ADDI, [.sigilImm imm8, .sigilReg rd]⟩) ∧
  ∀ (s : State) (rd : RegIdx) (imm8 : BitVec 8),
    WritesRegister (.addi rd imm8) s rd (BitVec.ofNat 16 ((s.readReg rd).toNat + imm8.toNat))

/-- 43_arith.md R47: the difference with the zero-extended immediate modulo 2^16, no flag. -/
def Obligations.SubiWritesTheDifference : Prop :=
  (∀ w : Word, w &&& 0xF800 = 0x5000 → decode defaultConfig w = .ok (.subi (rdOf w) (imm8Of w))) ∧
  (∀ (c : Config) (w : Word), c.Valid → opcodeOf w = c.opSubi → decode c w = .ok (.subi (rdOf w) (imm8Of w))) ∧
  (∀ rd imm8, (Instr.subi rd imm8).assembly = ⟨.SUBI, [.sigilImm imm8, .sigilReg rd]⟩) ∧
  ∀ (s : State) (rd : RegIdx) (imm8 : BitVec 8),
    WritesRegister (.subi rd imm8) s rd (BitVec.ofInt 16 ((s.readReg rd).toNat - imm8.toNat))

/-- 43_arith.md R48: the result of ADD, ADDI and SUBI is the low 16 bits of the mathematical result, in the unsigned reading
and in the signed one, and no flag is written; CMP's difference, under the spec's flag
function, is taken in the same way. -/
def Obligations.ArithmeticWrapsInBothReadings : Prop :=
  (∀ (s : State) (rd ra : RegIdx), ∃ t, exec (.add rd ra) s = .next t ∧
    (t.readReg rd).toNat = ((s.readReg rd).toNat + (s.readReg ra).toNat) % 65536 ∧
    (t.readReg rd).toInt = Int.bmod ((s.readReg rd).toInt + (s.readReg ra).toInt) 65536 ∧ t.flags = s.flags) ∧
  (∀ (s : State) (rd : RegIdx) (imm8 : BitVec 8), ∃ t, exec (.addi rd imm8) s = .next t ∧
    (t.readReg rd).toNat = ((s.readReg rd).toNat + imm8.toNat) % 65536 ∧
    (t.readReg rd).toInt = Int.bmod ((s.readReg rd).toInt + imm8.toNat) 65536 ∧ t.flags = s.flags) ∧
  (∀ (s : State) (rd : RegIdx) (imm8 : BitVec 8), ∃ t, exec (.subi rd imm8) s = .next t ∧
    ((t.readReg rd).toNat : Int) = ((s.readReg rd).toNat - imm8.toNat) % 65536 ∧
    (t.readReg rd).toInt = Int.bmod ((s.readReg rd).toInt - imm8.toNat) 65536 ∧ t.flags = s.flags) ∧
  (∀ (s : State) (rd ra : RegIdx), s.cfg.cmpOverrides = [] → ∃ t, exec (.cmp rd ra) s = .next t ∧
    (t.flags.ZF = true ↔ ((s.readReg rd).toNat - (s.readReg ra).toNat : Int) % 65536 = 0) ∧
    (t.flags.SF = true ↔ Int.bmod ((s.readReg rd).toInt - (s.readReg ra).toInt) 65536 < 0))

/-- 44_compare_setc.md R49: CMP writes the three flags that the flag function of the parameters gives for `x[Rd]` and `x[Ra]`,
which under the spec's choice is that of R50, and no general register. -/
def Obligations.CmpWritesOnlyTheFlags : Prop :=
  (∀ (c : Config) (w : Word), w &&& 0xF800 = 0x6800 → decode c w = .ok (.cmp (rdOf w) (raOf w))) ∧
  (∀ rd ra, (Instr.cmp rd ra).assembly = ⟨.CMP, [.plainReg rd, .plainReg ra]⟩) ∧
  (∀ (s : State) (rd ra : RegIdx), ∃ t, exec (.cmp rd ra) s = .next t ∧
    t.flags = configuredFlags s.cfg (s.readReg rd) (s.readReg ra) ∧
    (s.cfg.cmpOverrides = [] → t.flags = cmpFlags (s.readReg rd) (s.readReg ra)) ∧
    SameRegs s t ∧ PcAdvanced s t ∧ SameRam s t ∧ SameLaunch s t) ∧
  (∀ (s : State) (rd : RegIdx), s.cfg.cmpOverrides = [] →
    ∃ t, exec (.cmp rd rd) s = .next t ∧ t.flags = { ZF := true, SF := false, OF := false })

/-- 44_compare_setc.md R50: the flag function is a parameter, by default and without overrides the function of the rule: the
three flags of `r = (a - b) mod 2^16`, OF in both of the rule's forms. It has the rule's named properties. -/
def Obligations.CmpFlagsAreOfTheDifference : Prop :=
  defaultConfig.cmpOverrides = [] ∧ (∀ (c : Config) (a b : Word), c.cmpOverrides = [] → configuredFlags c a b = cmpFlags a b) ∧
  (∀ c : Config, c.cmpOverrides = [] → ZeroFlagIsEquality c ∧ FlagsOrderSigned c ∧ SignFlagIsBit15 c) ∧
  ∀ a b r : Word, r = BitVec.ofInt 16 (a.toNat - b.toNat) →
    ((cmpFlags a b).ZF = true ↔ r = 0x0000) ∧
    (cmpFlags a b).SF = r.getLsbD 15 ∧
    ((cmpFlags a b).OF = true ↔ a.getLsbD 15 ≠ b.getLsbD 15 ∧ r.getLsbD 15 ≠ a.getLsbD 15) ∧
    ((cmpFlags a b).OF = true ↔ a.toInt - b.toInt < -32768 ∨ 32767 < a.toInt - b.toInt)

/-- 00_scope.md R4: a claim over all parameters is a claim over all flag functions of CMP, for the model's overrides
(assumption 5) can give every one of them, whatever the other parameters are. -/
def Obligations.EveryFlagFunctionIsAConfiguration : Prop :=
  ∀ (f : Word → Word → Flags) (c : Config), ∃ l, ∀ (s : State) (rd ra : RegIdx), s.cfg = { c with cmpOverrides := l } →
    ∃ t, exec (.cmp rd ra) s = .next t ∧ t.flags = f (s.readReg rd) (s.readReg ra)

/-- What the spec derives from R50 ("Derived facts", 44_compare_setc.md): the orders of two operands by their flags. -/
def Obligations.CmpFlagsOrderTheOperands : Prop :=
  ∀ a b : Word,
    ((cmpFlags a b).ZF = true ↔ a = b) ∧
    ((cmpFlags a b).SF ≠ (cmpFlags a b).OF ↔ a.toInt < b.toInt) ∧
    ((cmpFlags a b).SF = (cmpFlags a b).OF ↔ b.toInt ≤ a.toInt) ∧
    ((cmpFlags a b).ZF = false ∧ (cmpFlags a b).SF = (cmpFlags a b).OF ↔ b.toInt < a.toInt) ∧
    ((cmpFlags a b).ZF = true ∨ (cmpFlags a b).SF ≠ (cmpFlags a b).OF ↔ a.toInt ≤ b.toInt) ∧
    (cmpFlags a b).Coherent

/-- 45_jump.md R54: the table of condition codes; the code is compared as a whole 8-bit number. -/
def Obligations.ConditionCodesSelectTheirTest : Prop :=
  ∀ f : Flags,
    flagCond f 0 = some true ∧ (flagCond f 1 = some true ↔ f.ZF = true) ∧ (flagCond f 2 = some true ↔ f.ZF = false) ∧
    (flagCond f 3 = some true ↔ f.ZF = false ∧ f.SF = f.OF) ∧ (flagCond f 4 = some true ↔ f.SF = f.OF) ∧
    (flagCond f 5 = some true ↔ f.SF ≠ f.OF) ∧ (flagCond f 6 = some true ↔ f.ZF = true ∨ f.SF ≠ f.OF) ∧
    (flagCond f 7 = some true ↔ f.SF = true) ∧ (flagCond f 8 = some true ↔ f.SF = false) ∧
    (∀ code : BitVec 8, flagCond f code = none ↔ 8 < code.toNat)

/-- 44_compare_setc.md R51. -/
def Obligations.SetcWritesOneOrZero : Prop :=
  (∀ (c : Config) (w : Word), w &&& 0xF800 = 0xA800 → (imm8Of w).toNat ≤ 8 →
    decode c w = .ok (.setc (rdOf w) (imm8Of w))) ∧
  (∀ (c : Config) (w : Word), w &&& 0xF800 = 0xA800 → 8 < (imm8Of w).toNat →
    decode c w = .error (.reservedCondition (imm8Of w))) ∧
  (∀ rd imm8, (Instr.setc rd imm8).assembly = ⟨.SETC, [.sigilImm imm8, .sigilReg rd]⟩) ∧
  (∀ (s : State) (rd : RegIdx) (code : BitVec 8), code.toNat ≤ 8 →
    ∃ b, flagCond s.flags code = some b ∧ WritesRegister (.setc rd code) s rd (if b then 0x0001 else 0x0000)) ∧
  (∀ (s : State) (rd : RegIdx), WritesRegister (.setc rd 0) s rd 0x0001) ∧
  (∀ (s : State) (rd : RegIdx) (code : BitVec 8), 8 < code.toNat →
    exec (.setc rd code) s = .refused (.reservedCondition code)) ∧
  (∀ (s : State) (rd : RegIdx), ∀ p ∈ [((1 : BitVec 8), (2 : BitVec 8)), (4, 5), (3, 6), (7, 8)],
    ∃ t u, exec (.setc rd p.1) s = .next t ∧ exec (.setc rd p.2) s = .next u ∧ t.readReg rd = 1 - u.readReg rd)

/-- 45_jump.md R53. A word decodes to an instruction that does what JMP with its fields does, under whichever spelling. -/
def Obligations.JmpGoesToTheRegister : Prop :=
  (∀ (c : Config) (w : Word), w &&& 0xF800 = 0x6000 → (imm8Of w).toNat ≤ 8 →
    ∃ i, decode c w = .ok i ∧ ∀ s, exec i s = exec (.jmp (rdOf w) (imm8Of w)) s) ∧
  (∀ (c : Config) (w : Word), w &&& 0xF800 = 0x6000 → 8 < (imm8Of w).toNat →
    decode c w = .error (.reservedCondition (imm8Of w))) ∧
  (∀ rd imm8, (Instr.jmp rd imm8).assembly = ⟨.JMP, [.plainReg rd, .plainImm imm8]⟩) ∧
  (∀ (s : State) (rd : RegIdx) (code : BitVec 8), code.toNat ≤ 8 →
    ∃ b, flagCond s.flags code = some b ∧ JumpsWhen (.jmp rd code) s rd (b = true)) ∧
  (∀ (s : State) (rd : RegIdx), JumpsWhen (.jmp rd 0) s rd True) ∧
  (∀ (s : State) (rd : RegIdx), s.readReg rd = s.pc → exec (.jmp rd 0) s = .next s) ∧
  (∀ (s t : State) (rd : RegIdx), exec (.jmp rd 0) s = .next t → s.instructionAt (s.readReg rd) = none →
    s.endPc ≠ some (s.readReg rd) → step t = .fault (.noInstruction (s.readReg rd))) ∧
  (∀ (s : State) (rd : RegIdx) (code : BitVec 8), 8 < code.toNat →
    exec (.jmp rd code) s = .refused (.reservedCondition code))

/-- 45_jump.md R55: the words `0x6000 | (Rd << 8) | code` of JMP and the eight spellings. -/
def Obligations.SpellingsAreJmpWords : Prop :=
  ∀ (c : Config) (rd : RegIdx), ∀ p ∈ [(Instr.jmp rd 0, (0 : BitVec 8)), (.je rd, 1), (.jne rd, 2), (.jg rd, 3),
      (.jge rd, 4), (.jl rd, 5), (.jle rd, 6), (.js rd, 7), (.jns rd, 8)],
    encode c p.1 = 0x6000 ||| (BitVec.ofNat 16 rd.val <<< 8) ||| p.2.zeroExtend 16 ∧
    (∃ i, decode c (encode c p.1) = .ok i ∧ ∀ s, exec i s = exec p.1 s) ∧ encode c (.jmp rd p.2) = encode c p.1 ∧
    jumpOperands p.1 = some (rd, p.2) ∧ ∀ s, exec p.1 s = exec (.jmp rd p.2) s

/-- 45_jump.md R53, R54, R55: when each conditional spelling jumps, in terms of the three flags. -/
def Obligations.ConditionalJumpsTestTheFlags : Prop :=
  ∀ (s : State) (rd : RegIdx),
    JumpsWhen (.je rd) s rd (s.flags.ZF = true) ∧ JumpsWhen (.jne rd) s rd (s.flags.ZF = false) ∧
    JumpsWhen (.jg rd) s rd (s.flags.ZF = false ∧ s.flags.SF = s.flags.OF) ∧
    JumpsWhen (.jge rd) s rd (s.flags.SF = s.flags.OF) ∧ JumpsWhen (.jl rd) s rd (s.flags.SF ≠ s.flags.OF) ∧
    JumpsWhen (.jle rd) s rd (s.flags.ZF = true ∨ s.flags.SF ≠ s.flags.OF) ∧
    JumpsWhen (.js rd) s rd (s.flags.SF = true) ∧ JumpsWhen (.jns rd) s rd (s.flags.SF = false)

/-! ### Rules of the whole machine, over all instructions -/

/-- 60_exceptions.md R65: where RAM has every 16-bit address and program text is separate, as by the spec's defaults, every
instruction completes in every state, whatever registers and addresses it names. -/
def Obligations.EveryInstructionCompletes : Prop :=
  65536 ≤ defaultConfig.ramWords ∧ defaultConfig.memOrg = .separate ∧
  ∀ (i : Instr) (s : State), 65536 ≤ s.cfg.ramWords → s.cfg.memOrg = .separate → i.wellFormed = true →
    ∃ t, exec i s = .next t

/-- 10_state.md R11: every register, R0 too, holds what is written to it; the registers each instruction reads and writes; no
other register is written, and no register that is not read has any influence on what is written. -/
def Obligations.RegistersReadAndWritten : Prop :=
  (∀ (s : State) (r q : RegIdx) (v : Word), (s.writeReg r v).readReg q = if q = r then v else s.readReg q) ∧
  (∀ (i : Instr) (s t : State) (r : RegIdx), exec i s = .next t → writtenReg i ≠ some r → t.readReg r = s.readReg r) ∧
  (∀ (i : Instr) (s t : State) (r : RegIdx) (v : Word), r ∉ readRegs i → exec i s = .next t →
    ∃ u, exec i (s.writeReg r v) = .next u ∧ (∀ q, q ≠ r → u.readReg q = t.readReg q) ∧
      u.readReg r = (if writtenReg i = some r then t.readReg r else v) ∧
      u.pc = t.pc ∧ u.flags = t.flags ∧ u.ram = t.ram ∧ SameLaunch t u) ∧
  (∀ (rd ra : RegIdx) (simm5 : BitVec 5) (imm8 : BitVec 8),
    (writtenReg (.lw rd ra simm5), readRegs (.lw rd ra simm5)) = (some rd, [ra]) ∧
    (writtenReg (.sw rd ra simm5), readRegs (.sw rd ra simm5)) = (none, [rd, ra]) ∧
    (writtenReg (.movr rd ra), readRegs (.movr rd ra)) = (some rd, [ra]) ∧
    (writtenReg (.movi rd imm8), readRegs (.movi rd imm8)) = (some rd, []) ∧
    (writtenReg (.add rd ra), readRegs (.add rd ra)) = (some rd, [rd, ra]) ∧
    (writtenReg (.addi rd imm8), readRegs (.addi rd imm8)) = (some rd, [rd]) ∧
    (writtenReg (.subi rd imm8), readRegs (.subi rd imm8)) = (some rd, [rd]) ∧
    (writtenReg (.cmp rd ra), readRegs (.cmp rd ra)) = (none, [rd, ra]) ∧
    (writtenReg (.setc rd imm8), readRegs (.setc rd imm8)) = (some rd, []) ∧
    (writtenReg (.jmp rd imm8), readRegs (.jmp rd imm8)) = (none, [rd]) ∧
    (writtenReg .nop, readRegs .nop) = (none, []))

/-- 10_state.md R13: every instruction but a jump that is taken ends with the pc advanced by PC_STEP, which is 1 in the spec; a
taken one ends at `x[Rd]`; the pc has no influence on what else an instruction writes. -/
def Obligations.PcAdvancesUnlessJumpTaken : Prop :=
  defaultConfig.pcStep = 1 ∧
  ∀ (i : Instr) (s t : State), exec i s = .next t →
    (∀ rd code, jumpOperands i = some (rd, code) →
      (flagCond s.flags code = some true ∧ t.pc = s.readReg rd) ∨
      (flagCond s.flags code = some false ∧ PcAdvanced s t)) ∧
    (jumpOperands i = none → PcAdvanced s t) ∧
    (∀ p : Word, ∃ u, exec i (s.setPc p) = .next u ∧ SameRegs t u ∧ u.flags = t.flags ∧ u.ram = t.ram ∧ SameLaunch t u)

/-- 10_state.md R14: CMP alone writes the flags; JMP and SETC read them through the condition function alone, which for code 0
reads none of them, and no other instruction reads them. -/
def Obligations.FlagsAreCmpsAlone : Prop :=
  (∀ (i : Instr) (s t : State), exec i s = .next t → t.flags ≠ s.flags → ∃ rd ra, i = .cmp rd ra) ∧
  (∀ (i : Instr) (s t : State) (f : Flags),
    (∀ rd code, jumpOperands i = some (rd, code) ∨ i = .setc rd code → flagCond f code = flagCond s.flags code) →
    exec i s = .next t →
    ∃ u, exec i (s.setFlags f) = .next u ∧ SameRegs t u ∧ u.pc = t.pc ∧ u.ram = t.ram ∧ SameLaunch t u) ∧
  (∀ f g : Flags, flagCond f 0 = flagCond g 0)

/-- 10_state.md R18, 20_memory.md R21: SW alone writes RAM, and only the cell it addresses. -/
def Obligations.RamIsWrittenBySwAlone : Prop :=
  ∀ (i : Instr) (s t : State) (a : Word), exec i s = .next t → t.ram.read a ≠ s.ram.read a →
    ∃ rd ra simm5, i = .sw rd ra simm5 ∧ effectiveAddress (s.readReg ra) simm5 = a

/-- 20_memory.md R22: the effective address is the sum modulo 2^16 with the offset of -16 to +15; the base register is not
modified; no instruction but LW and SW has anything to do with RAM. -/
def Obligations.EffectiveAddressWraps : Prop :=
  (∀ (base : Word) (simm5 : BitVec 5),
    ((effectiveAddress base simm5).toNat : Int) = (base.toNat + simm5.toInt) % 65536 ∧
    -16 ≤ simm5.toInt ∧ simm5.toInt ≤ 15) ∧
  effectiveAddress 0xFFFF 0b00001 = 0x0000 ∧ effectiveAddress 0x0000 0b11111 = 0xFFFF ∧
  (∀ (s t : State) (rd ra : RegIdx) (simm5 : BitVec 5),
    (exec (.lw rd ra simm5) s = .next t → ra ≠ rd → t.readReg ra = s.readReg ra) ∧
    (exec (.sw rd ra simm5) s = .next t → t.readReg ra = s.readReg ra)) ∧
  (∀ (i : Instr) (s t : State) (m : Memory), (∀ rd ra simm5, i ≠ .lw rd ra simm5 ∧ i ≠ .sw rd ra simm5) →
    exec i s = .next t → t.ram = s.ram ∧ exec i { s with ram := m } = .next { t with ram := m })

/-- 20_memory.md R29: fetching and program text, under both organisations. Under MEM_ORG = unified a store is seen by every
later fetch. -/
def Obligations.FetchReadsTheProgramText : Prop :=
  (∀ s : State, s.cfg.memOrg = .separate → s.endPc ≠ some s.pc →
    (∀ w, s.prog.read s.pc = some w → s.fetch = .ok w) ∧
    (s.prog.read s.pc = none → step s = .fault (.noInstruction s.pc))) ∧
  (∀ (s : State) (rd ra : RegIdx) (simm5 : BitVec 5) (p : Memory), s.cfg.memOrg = .separate →
    ∀ t, exec (.lw rd ra simm5) s = .next t → exec (.lw rd ra simm5) { s with prog := p } = .next { t with prog := p }) ∧
  (∀ s t : State, step s = .next t → t.prog = s.prog) ∧
  (∀ s : State, s.cfg.memOrg = .unified → s.endPc ≠ some s.pc → s.pc.toNat < s.cfg.ramWords →
    (∀ w, s.prog.read s.pc = some w → s.fetch = .ok w) ∧
    (∀ w, s.prog.read s.pc = none → s.ram.read s.pc = some w → s.fetch = .ok w)) ∧
  (∀ (s t u : State) (rd ra : RegIdx) (simm5 : BitVec 5), s.cfg.memOrg = .unified → exec (.sw rd ra simm5) s = .next t →
    RunAvoiding (StoresTo (effectiveAddress (s.readReg ra) simm5)) t u →
    u.pc = effectiveAddress (s.readReg ra) simm5 → u.endPc ≠ some u.pc → u.fetch = .ok (s.readReg rd)) ∧
  (∀ (s : State) (rd ra : RegIdx) (simm5 : BitVec 5) (ea : Word), s.cfg.memOrg = .unified →
    effectiveAddress (s.readReg ra) simm5 = ea → ea.toNat < s.cfg.ramWords → (s.prog.read ea).isSome →
    exec (.lw rd ra simm5) s = .fault (.programText ea) ∧ exec (.sw rd ra simm5) s = .fault (.programText ea))

/-- The program text, END_PC and the parameters are fixed at launch (10_state.md R18, 00_scope.md R4): no run changes them. That
they stand in State is the model's choice (assumptions 4, 5, 6). -/
def Obligations.LaunchIsFixed : Prop :=
  ∀ (n : Nat) (s t : State), Host.Core.run core n s = .next t → SameLaunch s t

/-- Every step keeps the invariant: canonical memories, no RAM cell beyond RAM_WORDS (20_memory.md R20), and under
MEM_ORG = unified no RAM cell over program text (R29). -/
def Obligations.StepKeepsTheInvariant : Prop :=
  ∀ s t : State, s.Inv → step s = .next t → t.Inv

/-- The invariant holds at reset under every choice of the parameters, and the pc is RESET_PC, by default 0, where execution
begins (70_reset_and_hazards.md R70). That RAM and program text list nothing is the model's form of an unspecified RAM and of
a program loaded from outside (assumptions 3, 4); what the registers and flags hold there is the model's choice
(assumptions 1, 2) and is not stated. -/
def Obligations.ResetMeetsTheInvariant : Prop :=
  (∀ c : Config, (State.resetWith c).Inv ∧ (State.resetWith c).pc = c.resetPc ∧ (State.resetWith c).cfg = c ∧
    (∀ a, (State.resetWith c).ram.read a = none) ∧ (∀ a, (State.resetWith c).prog.read a = none) ∧
    step (State.resetWith c) = .fault (.noInstruction c.resetPc)) ∧
  State.reset = State.resetWith defaultConfig ∧ State.reset.pc = 0x0000

/-- From flags that CMP can leave, every step leaves such flags, where the flag function of the parameters gives only such
flags; the function of 44_compare_setc.md R50 does, by the spec's derived facts. -/
def Obligations.StepKeepsFlagsCoherent : Prop :=
  (∀ c : Config, c.cmpOverrides = [] → ∀ a b, (configuredFlags c a b).Coherent) ∧
  ∀ s t : State, (∀ a b, (configuredFlags s.cfg a b).Coherent) → s.flags.Coherent → step s = .next t → t.flags.Coherent

/-- The normal outcome of 60_exceptions.md R67, which the spec derives from its rules: a step whose word decodes is the decoded
instruction's own effect. -/
def Obligations.StepRunsTheDecodedInstruction : Prop :=
  ∀ (s : State) (w : Word) (i : Instr), s.fetch = .ok w → decode s.cfg w = .ok i → step s = exec i s

/-- The outcomes of a step that the spec derives in 60_exceptions.md R67: the only ways in which a step of the model does not
exist. That a cell nothing has written holds no instruction is the model's choice (assumption 9). -/
def Obligations.StepStopsOnlyWhereListed : Prop :=
  (∀ s : State, s.endPc ≠ some s.pc → s.instructionAt s.pc = none → step s = .fault (.noInstruction s.pc)) ∧
  (∀ (s : State) (f : Fault), step s = .fault f →
    (f = .endOfRun ∧ s.endPc = some s.pc) ∨ (f = .noInstruction s.pc ∧ s.instructionAt s.pc = none) ∨
    (∃ rd ra simm5, (NextInstr s (.lw rd ra simm5) ∨ NextInstr s (.sw rd ra simm5)) ∧
      ¬Accessible s (effectiveAddress (s.readReg ra) simm5))) ∧
  (∀ (s : State) (q : Refusal), step s = .refused q →
    ∃ w e, s.fetch = .ok w ∧ decode s.cfg w = .error e ∧ q = refusalOf e)

/-- 70_reset_and_hazards.md R72, the model's convention for the end of a run (assumption 6): at END_PC no instruction is fetched and the run ends; an unconditional JMP to its own
address spins for ever. -/
def Obligations.RunsEndAtEndPcOrSpin : Prop :=
  (∀ s : State, s.endPc = some s.pc → step s = .fault .endOfRun) ∧
  (∀ (s : State) (rd : RegIdx), NextInstr s (.jmp rd 0) → s.readReg rd = s.pc → ∀ n, Host.Core.run core n s = .next s)

/-- The load of one instruction word at the pc (assumption 4): the very next step fetches it. Nothing else changes but END_PC,
which is taken away where it is the pc. -/
def Obligations.PlacedWordIsFetchedNext : Prop :=
  ∀ (s : State) (nbits w : Nat), (s.cfg.memOrg = .separate ∨ s.pc.toNat < s.cfg.ramWords) →
    (s.withFetchWord nbits w).fetch = .ok (BitVec.ofNat 16 (w % 2 ^ nbits)) ∧ SameRegs s (s.withFetchWord nbits w) ∧
    (s.withFetchWord nbits w).pc = s.pc ∧ (s.withFetchWord nbits w).flags = s.flags ∧
    (s.withFetchWord nbits w).ram = s.ram ∧ (s.withFetchWord nbits w).cfg = s.cfg ∧
    (s.withFetchWord nbits w).endPc = (if s.endPc = some s.pc then none else s.endPc) ∧
    (∀ a, a ≠ s.pc → (s.withFetchWord nbits w).prog.read a = s.prog.read a)

/-! ### Rules of runs -/

/-- 20_memory.md R27: over any run, LW returns the value of the latest SW to the same address, or, where there is none,
one value that the cell holds at the start of the run: the listed one if a value is listed. -/
def Obligations.LwReadsTheLatestStore : Prop :=
  (∀ (s s₁ s₂ : State) (rd ra rd' ra' : RegIdx) (simm5 simm5' : BitVec 5) (a : Word),
    effectiveAddress (s.readReg ra) simm5 = a → exec (.sw rd ra simm5) s = .next s₁ → RunAvoiding (StoresTo a) s₁ s₂ →
    effectiveAddress (s₂.readReg ra') simm5' = a → WritesRegister (.lw rd' ra' simm5') s₂ rd' (s.readReg rd)) ∧
  (∀ (s : State) (a : Word), Accessible s a →
    ∃ v, (∀ u, s.ram.read a = some u → v = u) ∧
      ∀ (s₂ : State) (rd' ra' : RegIdx) (simm5' : BitVec 5), RunAvoiding (StoresTo a) s s₂ →
        effectiveAddress (s₂.readReg ra') simm5' = a → WritesRegister (.lw rd' ra' simm5') s₂ rd' v)

/-- What the spec derives in 44_compare_setc.md R52: over any run without a further CMP, each condition code speaks of the
operands of the latest CMP, compared as signed numbers. Each part rests on the named properties of the flag function that it
needs; the function of R50 has them all. -/
def Obligations.ConditionsSpeakOfTheLatestCmp : Prop :=
  (∀ c : Config, c.cmpOverrides = [] → ZeroFlagIsEquality c ∧ FlagsOrderSigned c ∧ SignFlagIsBit15 c) ∧
  ∀ (s s₁ s₂ : State) (rd ra : RegIdx) (a b : Word), s.readReg rd = a → s.readReg ra = b →
    exec (.cmp rd ra) s = .next s₁ → RunAvoiding ComparesNext s₁ s₂ →
    s₂.flags = s₁.flags ∧ flagCond s₂.flags 0 = some true ∧
    (ZeroFlagIsEquality s.cfg →
      flagCond s₂.flags 1 = some (decide (a = b)) ∧ flagCond s₂.flags 2 = some (decide (a ≠ b))) ∧
    (ZeroFlagIsEquality s.cfg → FlagsOrderSigned s.cfg →
      flagCond s₂.flags 3 = some (decide (b.toInt < a.toInt)) ∧ flagCond s₂.flags 6 = some (decide (a.toInt ≤ b.toInt))) ∧
    (FlagsOrderSigned s.cfg →
      flagCond s₂.flags 4 = some (decide (b.toInt ≤ a.toInt)) ∧ flagCond s₂.flags 5 = some (decide (a.toInt < b.toInt))) ∧
    (SignFlagIsBit15 s.cfg →
      flagCond s₂.flags 7 = some ((BitVec.ofInt 16 (a.toNat - b.toNat)).getLsbD 15) ∧
      flagCond s₂.flags 8 = some (!(BitVec.ofInt 16 (a.toNat - b.toNat)).getLsbD 15))

/-- From what the spec derives in 70_reset_and_hazards.md R71: a run that reads only what it has written goes the same way from every state that differs
from its first in unwritten registers and flags alone, and ends in states that agree on all it has written. So what the
registers and flags hold at reset (assumptions 1 and 2) has no influence on such a run. -/
def Obligations.CleanRunsIgnoreUnwrittenState : Prop :=
  (∀ (w w' : Written) (s s' t : State), CleanRun w s w' s' → AgreeOn w s t →
    ∃ t', CleanRun w t w' t' ∧ AgreeOn w' s' t') ∧
  (∀ (w : Written) (i : Instr) (s t : State), w.Covers i → AgreeOn w s t →
    OutcomesAgree (w.after i) (exec i s) (exec i t))

/-! ### Representation, assembly, timing -/

/-- Two canonical memories that answer every read alike are the same data, so equality of states is equality of what the
machine holds (20_memory.md R20). -/
def Obligations.CanonicalMemoriesAreExtensional : Prop :=
  ∀ m n : Memory, m.wf → n.wf → (∀ a, m.read a = n.read a) → m = n

/-- 30_encoding.md R39: every instruction's line assembles back to it; `JMP Rd` is `JMP Rd, 0`; the lines of JE to JNS
assemble to the words of JMP with codes 1 to 8. -/
def Obligations.AssemblyLinesAssembleBack : Prop :=
  (∀ i : Instr, i.wellFormed = true → i.assembly.assemble = some i) ∧
  (∀ rd, AsmLine.assemble ⟨.JMP, [.plainReg rd]⟩ = some (.jmp rd 0)) ∧
  (∀ (l : AsmLine) (i : Instr), l.assemble = some i → i.wellFormed = true) ∧
  (∀ (c : Config) (rd : RegIdx), ∀ p ∈ [(Mnemonic.JE, (1 : BitVec 8)), (.JNE, 2), (.JG, 3), (.JGE, 4), (.JL, 5), (.JLE, 6),
      (.JS, 7), (.JNS, 8)],
    ((⟨p.1, [.plainReg rd]⟩ : AsmLine).assemble.map (encode c)) = some (encode c (.jmp rd p.2)))

/-- 70_reset_and_hazards.md R74: the rows of the table of clock cycles and stages, EXEC and EXECUTE taken as one stage; in
every row the count is the number of stages listed. -/
def Obligations.CyclesCountTheStages : Prop :=
  (∀ i : Instr, i.cycles = i.stages.length) ∧
  (Instr.nop.cycles = 2 ∧ Instr.nop.stages = [.FETCH, .DECODE]) ∧
  (∀ rd ra simm5, ∀ i ∈ [Instr.lw rd ra simm5, .sw rd ra simm5],
    i.cycles = 6 ∧ i.stages = [.FETCH, .DECODE, .READ, .EXECUTE, .RAM, .WRITE]) ∧
  (∀ rd ra imm8, ∀ i ∈ [Instr.movr rd ra, .movi rd imm8, .add rd ra, .addi rd imm8, .subi rd imm8, .cmp rd ra, .setc rd imm8],
    i.cycles = 5 ∧ i.stages = [.FETCH, .DECODE, .READ, .EXECUTE, .WRITE]) ∧
  (∀ rd imm8, ∀ i ∈ [Instr.jmp rd imm8, .je rd, .jne rd, .jg rd, .jge rd, .jl rd, .jle rd, .js rd, .jns rd],
    i.cycles = 5 ∧ i.stages = [.FETCH, .DECODE, .READ, .EXECUTE, .BRANCH])
end

