-- ==== Sys2Proof/Laws/Decode.lean ====
section
/-! SUPPORT. The fields of a word as numbers, and of the words the encoder builds (spec/30_encoding.md R31). -/

namespace Sys2Proof

/-! ### Fields as numbers -/

theorem opcodeOf_toNat (w : Word) : (opcodeOf w).toNat = w.toNat / 2048 % 32 := by
  simp [opcodeOf, BitVec.extractLsb'_toNat, Nat.shiftRight_eq_div_pow]

theorem rdOf_val (w : Word) : (rdOf w).val = w.toNat / 256 % 8 := by
  simp [rdOf, Nat.shiftRight_eq_div_pow]

theorem raOf_val (w : Word) : (raOf w).val = w.toNat / 32 % 8 := by
  simp [raOf, Nat.shiftRight_eq_div_pow]

theorem simm5Of_toNat (w : Word) : (simm5Of w).toNat = w.toNat % 32 := by
  simp [simm5Of, BitVec.extractLsb'_toNat]

theorem imm8Of_toNat (w : Word) : (imm8Of w).toNat = w.toNat % 256 := by
  simp [imm8Of, BitVec.extractLsb'_toNat]

/-! ### Encoded words as numbers -/

theorem toNat_append_add {m n : Nat} (x : BitVec m) (y : BitVec n) :
    (x ++ y).toNat = x.toNat * 2 ^ n + y.toNat := by
  rw [BitVec.toNat_append, ← Nat.shiftLeft_add_eq_or_of_lt y.isLt, Nat.shiftLeft_eq]

theorem packM_toNat (op : BitVec 5) (rd ra : RegIdx) (low : BitVec 5) :
    (packM op rd ra low).toNat = op.toNat * 2048 + rd.val * 256 + ra.val * 32 + low.toNat := by
  simp only [packM, toNat_append_add, BitVec.toNat_ofFin]
  omega

theorem packI_toNat (op : BitVec 5) (rd : RegIdx) (imm8 : BitVec 8) :
    (packI op rd imm8).toNat = op.toNat * 2048 + rd.val * 256 + imm8.toNat := by
  simp only [packI, toNat_append_add, BitVec.toNat_ofFin]
  omega

/-! ### Fields of encoded words -/

@[simp] theorem opcodeOf_packM (op : BitVec 5) (rd ra : RegIdx) (low : BitVec 5) :
    opcodeOf (packM op rd ra low) = op := by
  apply BitVec.eq_of_toNat_eq
  rw [opcodeOf_toNat, packM_toNat]
  omega

@[simp] theorem opcodeOf_packI (op : BitVec 5) (rd : RegIdx) (imm8 : BitVec 8) : opcodeOf (packI op rd imm8) = op := by
  apply BitVec.eq_of_toNat_eq
  rw [opcodeOf_toNat, packI_toNat]
  omega

@[simp] theorem rdOf_packM (op : BitVec 5) (rd ra : RegIdx) (low : BitVec 5) : rdOf (packM op rd ra low) = rd := by
  apply Fin.ext
  rw [rdOf_val, packM_toNat]
  omega

@[simp] theorem rdOf_packI (op : BitVec 5) (rd : RegIdx) (imm8 : BitVec 8) : rdOf (packI op rd imm8) = rd := by
  apply Fin.ext
  rw [rdOf_val, packI_toNat]
  omega

@[simp] theorem raOf_packM (op : BitVec 5) (rd ra : RegIdx) (low : BitVec 5) : raOf (packM op rd ra low) = ra := by
  apply Fin.ext
  rw [raOf_val, packM_toNat]
  omega

@[simp] theorem simm5Of_packM (op : BitVec 5) (rd ra : RegIdx) (low : BitVec 5) :
    simm5Of (packM op rd ra low) = low := by
  apply BitVec.eq_of_toNat_eq
  rw [simm5Of_toNat, packM_toNat]
  omega

@[simp] theorem imm8Of_packI (op : BitVec 5) (rd : RegIdx) (imm8 : BitVec 8) : imm8Of (packI op rd imm8) = imm8 := by
  apply BitVec.eq_of_toNat_eq
  rw [imm8Of_toNat, packI_toNat]
  omega

/-! ### A word is the packing of its fields -/

theorem packM_fields (w : Word) : packM (opcodeOf w) (rdOf w) (raOf w) (simm5Of w) = w := by
  apply BitVec.eq_of_toNat_eq
  rw [packM_toNat, opcodeOf_toNat, rdOf_val, raOf_val, simm5Of_toNat]
  have := w.isLt
  omega

theorem packI_fields (w : Word) : packI (opcodeOf w) (rdOf w) (imm8Of w) = w := by
  apply BitVec.eq_of_toNat_eq
  rw [packI_toNat, opcodeOf_toNat, rdOf_val, imm8Of_toNat]
  have := w.isLt
  omega

/-! ### The opcode map -/

/-- A printed opcode is its row's opcode, and never that of SW or SUBI. -/
theorem printedOperation_eq_some {op : BitVec 5} {o : Operation} (h : printedOperation op = some o) (c : Config) :
    o.opcode c = op ∧ o ≠ .sw ∧ o ≠ .subi := by
  have : ∀ op : BitVec 5, ∀ o ∈ printedOperation op,
      o.opcode Machine.defaultConfig = op ∧ o ≠ .sw ∧ o ≠ .subi := by decide
  obtain ⟨h1, h2, h3⟩ := this op o h
  cases o <;> simp_all [Operation.opcode]

/-- Every operation that an opcode selects has that opcode. -/
theorem operationOf_eq_some {c : Config} {op : BitVec 5} {o : Operation} (h : operationOf c op = some o) :
    o.opcode c = op := by
  unfold operationOf at h
  split at h
  · cases h
    exact (printedOperation_eq_some ‹_› c).1
  · split at h
    · cases h
      exact Eq.symm ‹_›
    · split at h
      · cases h
        exact Eq.symm ‹_›
      · cases h

/-- Under parameters that collide with no printed opcode, every operation is selected by its opcode. -/
theorem operationOf_opcode {c : Config} (hc : c.Valid) (o : Operation) : operationOf c (o.opcode c) = some o := by
  obtain ⟨h1, h2, h3, -⟩ := hc
  cases o
  case sw => simp [operationOf, Operation.opcode, h1]
  case subi => simp [operationOf, Operation.opcode, h2, Ne.symm h3]
  all_goals rfl

/-- The nine printed opcodes select their operation under all parameters. -/
theorem operationOf_printed (c : Config) {op : BitVec 5} {o : Operation} (h : printedOperation op = some o) :
    operationOf c op = some o := by
  simp [operationOf, h]

/-- A word decodes as its operation does. -/
theorem decode_of_operation {c : Config} {w : Word} {o : Operation} (h : operationOf c (opcodeOf w) = some o) :
    decode c w = decodeOperation w o := by
  simp [decode, h]

/-- A word with a printed opcode decodes as that row does, under all parameters. -/
theorem decode_of_printed {w : Word} {op : BitVec 5} {o : Operation} (h : opcodeOf w = op)
    (hp : printedOperation op = some o) (c : Config) : decode c w = decodeOperation w o := by
  subst h
  exact decode_of_operation (operationOf_printed c hp)

/-- A word with the opcode of a row decodes as that row does, under parameters that collide with no printed opcode. -/
theorem decode_of_opcode {c : Config} (hc : c.Valid) {w : Word} {o : Operation} (h : opcodeOf w = o.opcode c) :
    decode c w = decodeOperation w o :=
  decode_of_operation (by rw [h]; exact operationOf_opcode hc o)

/-- A word that decodes has an operation, whose opcode is the word's. -/
theorem decode_eq_ok {c : Config} {w : Word} {i : Instr} (h : decode c w = .ok i) :
    ∃ o, operationOf c (opcodeOf w) = some o ∧ o.opcode c = opcodeOf w ∧ decodeOperation w o = .ok i := by
  unfold decode at h
  split at h
  · rename_i o ho
    exact ⟨o, ho, operationOf_eq_some ho, h⟩
  · cases h

/-! ### The last step of decoding JMP and SETC -/

theorem withCondition_eq_ok_iff (code : BitVec 8) (i j : Instr) :
    withCondition code i = .ok j ↔ code.toNat ≤ 8 ∧ i = j := by
  unfold withCondition
  split <;> simp_all

theorem withCondition_eq_error_iff (code : BitVec 8) (i : Instr) (e : Invalid) :
    withCondition code i = .error e ↔ 8 < code.toNat ∧ e = .reservedCondition code := by
  unfold withCondition
  split
  · simp; omega
  · simp only [Except.error.injEq, eq_comm (a := e)]
    constructor
    · exact fun h => ⟨by omega, h⟩
    · exact fun h => h.2

/-- What a jump's canonical name can be: JMP itself unless the code is one of 1..8. -/
theorem jumpSpelling_of_le {rd : RegIdx} {code : BitVec 8} (h : code.toNat ≤ 8) :
    (code = 0 ∧ jumpSpelling rd code = .jmp rd 0) ∨ (code = 1 ∧ jumpSpelling rd code = .je rd) ∨
    (code = 2 ∧ jumpSpelling rd code = .jne rd) ∨ (code = 3 ∧ jumpSpelling rd code = .jg rd) ∨
    (code = 4 ∧ jumpSpelling rd code = .jge rd) ∨ (code = 5 ∧ jumpSpelling rd code = .jl rd) ∨
    (code = 6 ∧ jumpSpelling rd code = .jle rd) ∨ (code = 7 ∧ jumpSpelling rd code = .js rd) ∨
    (code = 8 ∧ jumpSpelling rd code = .jns rd) := by
  have hc : code = BitVec.ofNat 8 code.toNat := by simp
  generalize code.toNat = n at h hc
  subst hc
  interval_cases n <;> simp [jumpSpelling]

end Sys2Proof
end

