-- ==== Sys2Proof/Laws/Flags.lean ====
section
/-! SUPPORT. The configured flag function (spec/44_compare_setc.md R50), and the condition function: defined exactly on codes
0 to 8 (spec/45_jump.md R54, R56). -/

namespace Sys2Proof.Machine

/-- Without overrides the flag function of CMP is that of R50. -/
theorem configuredFlags_of_nil {c : Config} (h : c.cmpOverrides = []) (a b : Word) :
    configuredFlags c a b = cmpFlags a b := by
  simp [configuredFlags, h]

/-- An override gives the flags of its operand pair. -/
theorem configuredFlags_of_lookup {c : Config} {a b : Word} {f : Flags} (h : c.cmpOverrides.lookup (a, b) = some f) :
    configuredFlags c a b = f := by
  simp [configuredFlags, h]

/-- A valid code selects a condition. -/
theorem flagCond_of_le {f : Flags} {code : BitVec 8} (h : code.toNat ≤ 8) : ∃ b, flagCond f code = some b := by
  unfold flagCond
  generalize code.toNat = n at h
  interval_cases n <;> exact ⟨_, rfl⟩

/-- A reserved code selects none. -/
theorem flagCond_of_gt {f : Flags} {code : BitVec 8} (h : 8 < code.toNat) : flagCond f code = none := by
  unfold flagCond
  split <;> first | rfl | omega

/-- Code 0 reads no flag. -/
theorem flagCond_zero (f : Flags) : flagCond f 0 = some true := rfl

end Sys2Proof.Machine
end

