-- ==== Sys2Proof/Laws/Memory.lean ====
section
/-! SUPPORT. The laws of sparse memory: read after write, and that a write keeps the canonical form. -/

namespace Sys2Proof.Machine

@[simp] theorem Memory.read_nil (a : Word) : Memory.read [] a = none := rfl

theorem Memory.read_cons (k : Nat) (v : Word) (m : Memory) (a : Word) :
    Memory.read ((k, v) :: m) a = if k = a.toNat then some v else Memory.read m a := rfl

@[simp] theorem Memory.read_write_self (m : Memory) (a v : Word) : (m.write a v).read a = some v := by
  induction m with
  | nil => simp [Memory.write, Memory.read]
  | cons p m ih =>
    obtain ⟨k, u⟩ := p
    unfold Memory.write
    split
    · simp [Memory.read]
    split
    · simp_all [Memory.read]
    · have : k ≠ a.toNat := by omega
      simp [Memory.read, this, ih]

@[simp] theorem Memory.read_write_ne (m : Memory) {a b : Word} (v : Word) (h : b ≠ a) :
    (m.write a v).read b = m.read b := by
  have hn : a.toNat ≠ b.toNat := fun e => h (BitVec.eq_of_toNat_eq e.symm)
  induction m with
  | nil => simp [Memory.write, Memory.read, hn]
  | cons p m ih =>
    obtain ⟨k, u⟩ := p
    unfold Memory.write
    split
    · simp [Memory.read, hn]
    split
    · have : k ≠ b.toNat := by omega
      simp [Memory.read, this]
    · simp [Memory.read, ih]

theorem Memory.read_write (m : Memory) (a v b : Word) :
    (m.write a v).read b = if b = a then some v else m.read b := by
  by_cases h : b = a
  · simp [h]
  · simp [h]

/-- Every listed address after a write is the written one or was listed before. -/
theorem Memory.mem_write {m : Memory} {a v : Word} {p : Nat × Word} (h : p ∈ m.write a v) :
    p = (a.toNat, v) ∨ p ∈ m := by
  induction m with
  | nil => simpa [Memory.write] using h
  | cons q m ih =>
    obtain ⟨k, u⟩ := q
    unfold Memory.write at h
    split at h
    · simpa using h
    split at h
    · rename_i hk
      simp only [List.mem_cons] at h ⊢
      rcases h with rfl | h
      · exact .inl (by rw [hk])
      · exact .inr (.inr h)
    · simp only [List.mem_cons] at h ⊢
      rcases h with rfl | h
      · exact .inr (.inl rfl)
      · rcases ih h with h | h
        · exact .inl h
        · exact .inr (.inr h)

/-- A write keeps the canonical form. -/
theorem Memory.wf_write {m : Memory} (h : m.wf) (a v : Word) : (m.write a v).wf := by
  refine ⟨?_, fun p hp => ?_⟩
  · obtain ⟨h, -⟩ := h
    induction m with
    | nil => simp [Memory.write]
    | cons q m ih =>
      obtain ⟨k, u⟩ := q
      rw [List.pairwise_cons] at h
      unfold Memory.write
      split
      · rename_i hk
        refine List.pairwise_cons.2 ⟨fun p hp => ?_, List.pairwise_cons.2 h⟩
        rcases List.mem_cons.1 hp with rfl | hp
        · exact hk
        · exact Nat.lt_trans hk (h.1 p hp)
      split
      · exact List.pairwise_cons.2 h
      · refine List.pairwise_cons.2 ⟨fun p hp => ?_, ih h.2⟩
        rcases Memory.mem_write hp with rfl | hp
        · show k < a.toNat
          omega
        · exact h.1 p hp
  · rcases Memory.mem_write hp with rfl | hp
    · exact a.isLt
    · exact h.2 p hp

/-- Reset memory has the canonical form. -/
theorem Memory.wf_reset (c : Config) : (State.resetWith c).ram.wf ∧ (State.resetWith c).prog.wf := by
  simp [State.resetWith, Memory.wf]

end Sys2Proof.Machine
end

