-- ==== Sys2Proof/Laws/State.lean ====
section
/-! SUPPORT. One lemma for each field of State under each update of Machine/Ops.lean. -/

namespace Sys2Proof.Machine

@[simp] theorem State.writeReg_regs (s : State) (r : RegIdx) (v : Word) : (s.writeReg r v).regs = s.regs.set r v := rfl
@[simp] theorem State.writeReg_pc (s : State) (r : RegIdx) (v : Word) : (s.writeReg r v).pc = s.pc := rfl
@[simp] theorem State.writeReg_flags (s : State) (r : RegIdx) (v : Word) : (s.writeReg r v).flags = s.flags := rfl
@[simp] theorem State.writeReg_ram (s : State) (r : RegIdx) (v : Word) : (s.writeReg r v).ram = s.ram := rfl
@[simp] theorem State.writeReg_prog (s : State) (r : RegIdx) (v : Word) : (s.writeReg r v).prog = s.prog := rfl
@[simp] theorem State.writeReg_endPc (s : State) (r : RegIdx) (v : Word) : (s.writeReg r v).endPc = s.endPc := rfl
@[simp] theorem State.writeReg_cfg (s : State) (r : RegIdx) (v : Word) : (s.writeReg r v).cfg = s.cfg := rfl

@[simp] theorem State.setPc_regs (s : State) (t : Word) : (s.setPc t).regs = s.regs := rfl
@[simp] theorem State.setPc_pc (s : State) (t : Word) : (s.setPc t).pc = t := rfl
@[simp] theorem State.setPc_flags (s : State) (t : Word) : (s.setPc t).flags = s.flags := rfl
@[simp] theorem State.setPc_ram (s : State) (t : Word) : (s.setPc t).ram = s.ram := rfl
@[simp] theorem State.setPc_prog (s : State) (t : Word) : (s.setPc t).prog = s.prog := rfl
@[simp] theorem State.setPc_endPc (s : State) (t : Word) : (s.setPc t).endPc = s.endPc := rfl
@[simp] theorem State.setPc_cfg (s : State) (t : Word) : (s.setPc t).cfg = s.cfg := rfl

@[simp] theorem State.advance_regs (s : State) : s.advance.regs = s.regs := rfl
@[simp] theorem State.advance_pc (s : State) : s.advance.pc = s.pc + s.cfg.pcStep := rfl
@[simp] theorem State.advance_flags (s : State) : s.advance.flags = s.flags := rfl
@[simp] theorem State.advance_ram (s : State) : s.advance.ram = s.ram := rfl
@[simp] theorem State.advance_prog (s : State) : s.advance.prog = s.prog := rfl
@[simp] theorem State.advance_endPc (s : State) : s.advance.endPc = s.endPc := rfl
@[simp] theorem State.advance_cfg (s : State) : s.advance.cfg = s.cfg := rfl

@[simp] theorem State.setFlags_regs (s : State) (f : Flags) : (s.setFlags f).regs = s.regs := rfl
@[simp] theorem State.setFlags_pc (s : State) (f : Flags) : (s.setFlags f).pc = s.pc := rfl
@[simp] theorem State.setFlags_flags (s : State) (f : Flags) : (s.setFlags f).flags = f := rfl
@[simp] theorem State.setFlags_ram (s : State) (f : Flags) : (s.setFlags f).ram = s.ram := rfl
@[simp] theorem State.setFlags_prog (s : State) (f : Flags) : (s.setFlags f).prog = s.prog := rfl
@[simp] theorem State.setFlags_endPc (s : State) (f : Flags) : (s.setFlags f).endPc = s.endPc := rfl
@[simp] theorem State.setFlags_cfg (s : State) (f : Flags) : (s.setFlags f).cfg = s.cfg := rfl

@[simp] theorem State.placeInstruction_regs (s : State) (w : Word) : (s.placeInstruction w).regs = s.regs := rfl
@[simp] theorem State.placeInstruction_pc (s : State) (w : Word) : (s.placeInstruction w).pc = s.pc := rfl
@[simp] theorem State.placeInstruction_flags (s : State) (w : Word) : (s.placeInstruction w).flags = s.flags := rfl
@[simp] theorem State.placeInstruction_ram (s : State) (w : Word) : (s.placeInstruction w).ram = s.ram := rfl
@[simp] theorem State.placeInstruction_prog (s : State) (w : Word) : (s.placeInstruction w).prog = s.prog.write s.pc w := rfl
@[simp] theorem State.placeInstruction_endPc (s : State) (w : Word) : (s.placeInstruction w).endPc = if s.endPc = some s.pc then none else s.endPc := rfl
@[simp] theorem State.placeInstruction_cfg (s : State) (w : Word) : (s.placeInstruction w).cfg = s.cfg := rfl

/-! ### Reading a register after an update -/

@[simp] theorem State.readReg_writeReg_self (s : State) (r : RegIdx) (v : Word) : (s.writeReg r v).readReg r = v := by
  simp [State.readReg]

@[simp] theorem State.readReg_writeReg_ne (s : State) {r q : RegIdx} (v : Word) (h : q ≠ r) :
    (s.writeReg r v).readReg q = s.readReg q := by
  have : r.val ≠ q.val := fun e => h (Fin.ext e.symm)
  simp [State.readReg, Vector.getElem_set_ne _ _ this]

@[simp] theorem State.readReg_setPc (s : State) (t : Word) (r : RegIdx) : (s.setPc t).readReg r = s.readReg r := rfl

@[simp] theorem State.readReg_advance (s : State) (r : RegIdx) : s.advance.readReg r = s.readReg r := rfl

@[simp] theorem State.readReg_setFlags (s : State) (f : Flags) (r : RegIdx) : (s.setFlags f).readReg r = s.readReg r :=
  rfl

@[simp] theorem State.readReg_placeInstruction (s : State) (w : Word) (r : RegIdx) :
    (s.placeInstruction w).readReg r = s.readReg r := rfl

/-- A register at reset holds the value of assumption 1. -/
theorem State.reset_readReg (r : RegIdx) : State.reset.readReg r = resetReg r := by
  simp [State.readReg, State.reset, State.resetWith]

end Sys2Proof.Machine
end

