-- ==== Sys2Proof/Laws/Ops.lean ====
section
/-! SUPPORT. What each shared operation of Machine/Ops.lean can do. -/

namespace Sys2Proof.Machine

/-- An address has no access fault exactly where RAM has the cell and, under MEM_ORG = unified, no program text stands. -/
theorem State.accessFault_eq_none_iff (s : State) (a : Word) :
    s.accessFault a = none ↔ a.toNat < s.cfg.ramWords ∧ (s.cfg.memOrg = .unified → s.prog.read a = none) := by
  unfold State.accessFault
  split
  · simp; omega
  · rename_i h
    rcases hm : s.cfg.memOrg with _ | _ <;> simp <;> omega

theorem State.accessFault_eq_some {s : State} {a : Word} {f : Fault} (h : s.accessFault a = some f) :
    (f = .ramOutOfRange a ∧ s.cfg.ramWords ≤ a.toNat) ∨
      (f = .programText a ∧ s.cfg.memOrg = .unified ∧ (s.prog.read a).isSome ∧ a.toNat < s.cfg.ramWords) := by
  unfold State.accessFault at h
  split at h
  · simp_all
  · rcases hm : s.cfg.memOrg with _ | _ <;> simp_all

/-- A load answers the cell's value exactly where there is no access fault. -/
theorem State.loadWord_eq_ok_iff (s : State) (a v : Word) :
    s.loadWord a = .ok v ↔ s.accessFault a = none ∧ v = s.ramValue a := by
  cases h : s.accessFault a <;> simp [State.loadWord, h, eq_comm]

/-- A store that answers a state has changed one RAM cell and nothing else. -/
theorem State.storeWord_eq_ok_iff (s t : State) (a v : Word) :
    s.storeWord a v = .ok t ↔ s.accessFault a = none ∧ t = { s with ram := s.ram.write a v } := by
  cases h : s.accessFault a <;> simp [State.storeWord, h, eq_comm]

theorem State.loadWord_eq_error_iff (s : State) (a : Word) (f : Fault) :
    s.loadWord a = .error f ↔ s.accessFault a = some f := by
  cases h : s.accessFault a <;> simp [State.loadWord, h]

theorem State.storeWord_eq_error_iff (s : State) (a v : Word) (f : Fault) :
    s.storeWord a v = .error f ↔ s.accessFault a = some f := by
  cases h : s.accessFault a <;> simp [State.storeWord, h]

theorem State.ramValue_of_read {s : State} {a v : Word} (h : s.ram.read a = some v) : s.ramValue a = v := by
  simp [State.ramValue, h]

theorem State.ramValue_of_unwritten {s : State} {a : Word} (h : s.ram.read a = none) :
    s.ramValue a = Config.launchRam a := by
  simp [State.ramValue, h]

/-- A jump that answers a next state has gone to the register or to the next instruction. -/
theorem State.jumpOn_eq_next {s t : State} {code : BitVec 8} {rd : RegIdx} (h : s.jumpOn code rd = .next t) :
    (flagCond s.flags code = some true ∧ t = s.setPc (s.readReg rd)) ∨ (flagCond s.flags code = some false ∧ t = s.advance) := by
  unfold State.jumpOn at h
  split at h <;> simp_all

/-- A jump on a valid code answers a next state. -/
theorem State.jumpOn_completes (s : State) {code : BitVec 8} (rd : RegIdx) (h : code.toNat ≤ 8) :
    ∃ b, flagCond s.flags code = some b ∧
      s.jumpOn code rd = .next (if b then s.setPc (s.readReg rd) else s.advance) := by
  obtain ⟨b, hb⟩ := flagCond_of_le (f := s.flags) h
  refine ⟨b, hb, ?_⟩
  cases b <;> simp [State.jumpOn, hb]

/-- A fetch that answers a word has found an instruction at a pc that is not END_PC. -/
theorem State.fetch_eq_ok_iff (s : State) (w : Word) :
    s.fetch = .ok w ↔ s.endPc ≠ some s.pc ∧ s.instructionAt s.pc = some w := by
  unfold State.fetch
  split
  · simp_all
  · split <;> simp_all

end Sys2Proof.Machine
end

