-- ==== Sys2Proof/Laws/Exec.lean ====
section
/-! SUPPORT. What an instruction, and a step, can do when it answers a next state: said once, for every later proof. -/

namespace Sys2Proof.Machine

/-- What the operations of `exec` can answer: the five shapes of a next state. -/
inductive Effect (i : Instr) (s : State) : State → Prop where
  /-- Only the pc advances. -/
  | advance (h : writtenReg i = none) : Effect i s s.advance
  /-- One register is written and the pc advances. -/
  | register (rd : RegIdx) (v : Word) (h : writtenReg i = some rd) : Effect i s (s.writeReg rd v).advance
  /-- SW: one RAM cell is written and the pc advances. -/
  | store (rd ra : RegIdx) (simm5 : BitVec 5) (h : i = .sw rd ra simm5)
      (ha : s.accessFault (effectiveAddress (s.readReg ra) simm5) = none) :
      Effect i s
        { s with ram := s.ram.write (effectiveAddress (s.readReg ra) simm5) (s.readReg rd), pc := s.pc + s.cfg.pcStep }
  /-- CMP: the flags are written and the pc advances. -/
  | compare (rd ra : RegIdx) (h : i = .cmp rd ra) :
      Effect i s (s.setFlags (configuredFlags s.cfg (s.readReg rd) (s.readReg ra))).advance
  /-- A jump that is taken: the pc alone changes. -/
  | jump (rd : RegIdx) (code : BitVec 8) (h : jumpOperands i = some (rd, code))
      (hc : flagCond s.flags code = some true) (hw : writtenReg i = none) : Effect i s (s.setPc (s.readReg rd))

/-- A jump under any of its names. -/
theorem effect_of_jumpOn {i : Instr} {s t : State} {rd : RegIdx} {code : BitVec 8}
    (hi : jumpOperands i = some (rd, code)) (hw : writtenReg i = none) (h : s.jumpOn code rd = .next t) :
    Effect i s t := by
  rcases State.jumpOn_eq_next h with ⟨hc, rfl⟩ | ⟨-, rfl⟩
  · exact .jump rd code hi hc hw
  · exact .advance hw

/-- Every instruction that answers a next state has one of the five effects. -/
theorem exec_effect {i : Instr} {s t : State} (h : exec i s = .next t) : Effect i s t := by
  cases i with
  | nop => cases h; exact .advance rfl
  | lw rd ra simm5 =>
    simp only [exec, execLw] at h
    split at h
    · cases h; exact .register rd _ rfl
    · cases h
  | sw rd ra simm5 =>
    simp only [exec, execSw] at h
    split at h
    · rename_i u hu
      obtain ⟨ha, rfl⟩ := (State.storeWord_eq_ok_iff ..).1 hu
      cases h
      exact .store rd ra simm5 rfl ha
    · cases h
  | movr rd ra => cases h; exact .register rd _ rfl
  | movi rd imm8 => cases h; exact .register rd _ rfl
  | add rd ra => cases h; exact .register rd _ rfl
  | addi rd imm8 => cases h; exact .register rd _ rfl
  | subi rd imm8 => cases h; exact .register rd _ rfl
  | cmp rd ra => cases h; exact .compare rd ra rfl
  | setc rd code =>
    simp only [exec, execSetc] at h
    split at h
    · cases h; exact .register rd _ rfl
    · cases h
  | jmp rd code => exact effect_of_jumpOn rfl rfl h
  | je rd => exact effect_of_jumpOn (code := 1) rfl rfl h
  | jne rd => exact effect_of_jumpOn (code := 2) rfl rfl h
  | jg rd => exact effect_of_jumpOn (code := 3) rfl rfl h
  | jge rd => exact effect_of_jumpOn (code := 4) rfl rfl h
  | jl rd => exact effect_of_jumpOn (code := 5) rfl rfl h
  | jle rd => exact effect_of_jumpOn (code := 6) rfl rfl h
  | js rd => exact effect_of_jumpOn (code := 7) rfl rfl h
  | jns rd => exact effect_of_jumpOn (code := 8) rfl rfl h

/-- A step that answers a next state has fetched a word, decoded it and run the instruction. -/
theorem step_eq_next {s t : State} (h : step s = .next t) :
    ∃ w i, s.fetch = .ok w ∧ decode s.cfg w = .ok i ∧ exec i s = .next t := by
  unfold step at h
  split at h
  · cases h
  · rename_i w hw
    split at h
    · rename_i i hi
      exact ⟨w, i, hw, hi, h⟩
    · cases h

end Sys2Proof.Machine
end

