-- ==== Sys2Proof/Laws/Frames.lean ====
section
/-! SUPPORT. What an advance of the pc and a finished register write are, in the terms of claims. -/

namespace Sys2Proof.Machine

/-- A pc moved by PC_STEP has advanced. -/
theorem pcAdvanced_of_pc {s t : State} (h : t.pc = s.pc + s.cfg.pcStep) : PcAdvanced s t :=
  ⟨h, fun h1 => h1 ▸ h⟩

/-- An instruction whose whole meaning is `finishWith` writes its register. -/
theorem writesRegister_of_finishWith {i : Instr} {s : State} {rd : RegIdx} {v : Word}
    (h : exec i s = s.finishWith rd v) : WritesRegister i s rd v :=
  ⟨_, h, by simp, fun r hr => by simp [hr], pcAdvanced_of_pc rfl, rfl, fun _ => rfl, rfl, rfl, rfl⟩

end Sys2Proof.Machine
end

