-- ==== Sys2Proof/Laws/PerInstr.lean ====
section
/-! SUPPORT. For every instruction: the opcode field of its word is its row's opcode (spec/30_encoding.md R30, R33). -/

namespace Sys2Proof.Laws.EncodesOpcode

/-- Bits 15:11 of the instruction's word are its opcode, under every choice of the open parameters. -/
def Statement (i : Instr) : Prop := ∀ c : Config, opcodeOf (encode c i) = i.opcode c

theorem nop : Statement .nop := fun _ => opcodeOf_packI ..
theorem lw (rd ra : RegIdx) (simm5 : BitVec 5) : Statement (.lw rd ra simm5) := fun _ => opcodeOf_packM ..
theorem sw (rd ra : RegIdx) (simm5 : BitVec 5) : Statement (.sw rd ra simm5) := fun _ => opcodeOf_packM ..
theorem movr (rd ra : RegIdx) : Statement (.movr rd ra) := fun _ => opcodeOf_packM ..
theorem movi (rd : RegIdx) (imm8 : BitVec 8) : Statement (.movi rd imm8) := fun _ => opcodeOf_packI ..
theorem add (rd ra : RegIdx) : Statement (.add rd ra) := fun _ => opcodeOf_packM ..
theorem addi (rd : RegIdx) (imm8 : BitVec 8) : Statement (.addi rd imm8) := fun _ => opcodeOf_packI ..
theorem subi (rd : RegIdx) (imm8 : BitVec 8) : Statement (.subi rd imm8) := fun _ => opcodeOf_packI ..
theorem jmp (rd : RegIdx) (imm8 : BitVec 8) : Statement (.jmp rd imm8) := fun _ => opcodeOf_packI ..
theorem cmp (rd ra : RegIdx) : Statement (.cmp rd ra) := fun _ => opcodeOf_packM ..
theorem setc (rd : RegIdx) (imm8 : BitVec 8) : Statement (.setc rd imm8) := fun _ => opcodeOf_packI ..
theorem je (rd : RegIdx) : Statement (.je rd) := fun _ => opcodeOf_packI ..
theorem jne (rd : RegIdx) : Statement (.jne rd) := fun _ => opcodeOf_packI ..
theorem jg (rd : RegIdx) : Statement (.jg rd) := fun _ => opcodeOf_packI ..
theorem jge (rd : RegIdx) : Statement (.jge rd) := fun _ => opcodeOf_packI ..
theorem jl (rd : RegIdx) : Statement (.jl rd) := fun _ => opcodeOf_packI ..
theorem jle (rd : RegIdx) : Statement (.jle rd) := fun _ => opcodeOf_packI ..
theorem js (rd : RegIdx) : Statement (.js rd) := fun _ => opcodeOf_packI ..
theorem jns (rd : RegIdx) : Statement (.jns rd) := fun _ => opcodeOf_packI ..

end Sys2Proof.Laws.EncodesOpcode
end

