-- ==== Sys2Proof/Laws/Run.lean ====
section
/-! SUPPORT. The host's run of the machine, one step at a time. -/

namespace Sys2Proof.Machine

/-- A step that answers a next state is the first step of the run. -/
theorem run_succ_of_step {s t : State} (h : step s = .next t) (n : Nat) :
    Host.Core.run core (n + 1) s = Host.Core.run core n t := by
  have hs : core.step s = .next t := h
  simp only [Host.Core.run, hs]

/-- A run of one step more that answers a next state has taken a step and then a shorter run. -/
theorem run_succ_eq_next {s t : State} {n : Nat} (h : Host.Core.run core (n + 1) s = .next t) :
    ∃ u, step s = .next u ∧ Host.Core.run core n u = .next t := by
  cases hs : step s with
  | next u => exact ⟨u, rfl, run_succ_of_step hs n ▸ h⟩
  | fault f =>
    have : core.step s = .fault f := hs
    simp only [Host.Core.run, this] at h
    cases h
  | refused q =>
    have : core.step s = .refused q := hs
    simp only [Host.Core.run, this] at h
    cases h

end Sys2Proof.Machine
end

