-- ==== Sys2Proof/Tests/Slice0.lean ====
section
/-! SUPPORT. The model's own tests. Expected words and results are those of spec/95_test_vectors.md, or are worked by hand
from the rule named. Witnesses show that the hypotheses of a statement can be met. -/

namespace Sys2Proof.Tests

open Sys2Proof.Machine

/-! ### Well-formedness -/

/-- Codes 0 and 8 are valid, 9 and 255 are refused, in JMP and in SETC (45_jump.md R53, R56). -/
theorem test_wellFormed_conditions :
    (Instr.jmp 5 0).wellFormed = true ∧ (Instr.jmp 5 8).wellFormed = true ∧ (Instr.jmp 5 9).wellFormed = false ∧
    (Instr.jmp 5 255).wellFormed = false ∧ (Instr.setc 3 0).wellFormed = true ∧ (Instr.setc 3 8).wellFormed = true ∧
    (Instr.setc 3 9).wellFormed = false ∧ (Instr.setc 3 255).wellFormed = false := by decide

/-! ### Decoding: words of section 2.1, written out by fields -/

theorem test_decode_nop :
    decode defaultConfig 0b0000000000000000 = .ok .nop ∧ decode defaultConfig 0b0000011111111111 = .ok .nop := by decide

theorem test_decode_lw :
    decode defaultConfig 0b0000100101000100 = .ok (.lw 1 2 4) ∧
    decode defaultConfig 0b0000101111110000 = .ok (.lw 3 7 0b10000) ∧
    decode defaultConfig 0b0000100000001111 = .ok (.lw 0 0 15) := by decide

theorem test_decode_sw :
    decode defaultConfig 0b0001000101000100 = .ok (.sw 1 2 4) ∧
    decode defaultConfig 0b0001010111011111 = .ok (.sw 5 6 0b11111) := by decide

theorem test_decode_movr :
    decode defaultConfig 0b0001101000100000 = .ok (.movr 2 1) ∧
    decode defaultConfig 0b0001101000111111 = .ok (.movr 2 1) ∧
    decode defaultConfig 0b0001111111100000 = .ok (.movr 7 7) := by decide

theorem test_decode_movi :
    decode defaultConfig 0b0010001110101011 = .ok (.movi 3 0xAB) ∧
    decode defaultConfig 0b0010011111111111 = .ok (.movi 7 255) := by decide

theorem test_decode_add : decode defaultConfig 0b0100000101000000 = .ok (.add 1 2) := by decide

theorem test_decode_addi :
    decode defaultConfig 0b0100110011111111 = .ok (.addi 4 255) ∧
    decode defaultConfig 0b0100100000000001 = .ok (.addi 0 1) := by decide

theorem test_decode_subi :
    decode defaultConfig 0b0101010011111111 = .ok (.subi 4 255) ∧
    decode defaultConfig 0b0101001000000001 = .ok (.subi 2 1) := by decide

theorem test_decode_cmp :
    decode defaultConfig 0b0110100101000000 = .ok (.cmp 1 2) ∧
    decode defaultConfig 0b0110111111111111 = .ok (.cmp 7 7) := by decide

theorem test_decode_setc :
    decode defaultConfig 0b1010101100001000 = .ok (.setc 3 8) ∧
    decode defaultConfig 0b1010100000000000 = .ok (.setc 0 0) := by decide

theorem test_decode_jmp :
    decode defaultConfig 0b0110010100000000 = .ok (.jmp 5 0) ∧
    decode defaultConfig 0b0110011100000000 = .ok (.jmp 7 0) := by decide

theorem test_decode_spellings :
    decode defaultConfig 0b0110010100000001 = .ok (.je 5) ∧ decode defaultConfig 0b0110010100000010 = .ok (.jne 5) ∧
    decode defaultConfig 0b0110010100000011 = .ok (.jg 5) ∧ decode defaultConfig 0b0110010100000100 = .ok (.jge 5) ∧
    decode defaultConfig 0b0110010100000101 = .ok (.jl 5) ∧ decode defaultConfig 0b0110010100000110 = .ok (.jle 5) ∧
    decode defaultConfig 0b0110010100000111 = .ok (.js 5) ∧ decode defaultConfig 0b0110010100001000 = .ok (.jns 5) := by
  decide

/-- The invalid words of section 2.1. -/
theorem test_decode_invalid :
    decode defaultConfig 0x2800 = .error (.unassignedOpcode 0b00101) ∧
    decode defaultConfig 0x3FFF = .error (.unassignedOpcode 0b00111) ∧
    decode defaultConfig 0x5800 = .error (.unassignedOpcode 0b01011) ∧
    decode defaultConfig 0x7000 = .error (.unassignedOpcode 0b01110) ∧
    decode defaultConfig 0xA7FF = .error (.unassignedOpcode 0b10100) ∧
    decode defaultConfig 0xB000 = .error (.unassignedOpcode 0b10110) ∧
    decode defaultConfig 0xFFFF = .error (.unassignedOpcode 0b11111) ∧
    decode defaultConfig 0x6509 = .error (.reservedCondition 9) ∧
    decode defaultConfig 0x65FF = .error (.reservedCondition 255) ∧
    decode defaultConfig 0x6511 = .error (.reservedCondition 0x11) ∧
    decode defaultConfig 0xAB09 = .error (.reservedCondition 9) := by decide

/-- The encoder writes the words of section 2.1. -/
theorem test_encode :
    encode defaultConfig .nop = 0x0000 ∧ encode defaultConfig (.lw 3 7 0b10000) = 0x0BF0 ∧
    encode defaultConfig (.sw 5 6 0b11111) = 0x15DF ∧ encode defaultConfig (.movr 2 1) = 0x1A20 ∧
    encode defaultConfig (.movi 3 0xAB) = 0x23AB ∧ encode defaultConfig (.add 1 2) = 0x4140 ∧
    encode defaultConfig (.addi 4 255) = 0x4CFF ∧ encode defaultConfig (.subi 4 255) = 0x54FF ∧
    encode defaultConfig (.cmp 1 2) = 0x6940 ∧ encode defaultConfig (.setc 3 8) = 0xAB08 ∧
    encode defaultConfig (.jmp 5 0) = 0x6500 ∧ encode defaultConfig (.jns 5) = 0x6508 := by decide

/-- The widths that the types fix are those of 00_scope.md R4: of an instruction word, a register, the register numbers, the
opcode, a RAM cell, a RAM address and the pc. -/
theorem test_fixed_parameters (c : Config) :
    Word = BitVec c.ilen ∧ Word = BitVec c.xlen ∧ RegIdx = Fin c.nregs ∧ (opcodeOf : Word → BitVec c.opbits) = opcodeOf ∧
    Memory = List (Nat × BitVec c.word) ∧ (effectiveAddress : Word → BitVec 5 → BitVec c.alen) = effectiveAddress ∧
    (State.pc : State → BitVec c.pclen) = State.pc := ⟨rfl, rfl, rfl, rfl, rfl, rfl, rfl⟩

/-- Where OP_SW and OP_SUBI are one free opcode, a word with it is SW (assumption 13). -/
theorem test_decode_shared_opcode :
    decode { defaultConfig with opSubi := 0b00010 } 0x1144 = .ok (.sw 1 2 4) := by decide

/-- The word that the opcode table numbers, decoded, placed and run. -/
theorem test_table_word : decodeTableWord 16 0x4140 = some (.add 1 2) ∧ decodeTableWord 16 0x2800 = none := by decide

/-! ### One step on a small state -/

/-- The reset state, then at `pc` with the given registers, flags ZF, SF, OF and RAM cells, and with `w` as the only
instruction. -/
def machine (pc : Word) (regs : List (RegIdx × Word)) (zf sf of : Bool) (ram : List (Word × Word)) (w : Word) : State :=
  let s := (State.reset.setPc pc).setFlags { ZF := zf, SF := sf, OF := of }
  let s := regs.foldl (fun s p => s.writeReg p.1 p.2) s
  { s with ram := ram.foldl (fun m (p : Word × Word) => Memory.write m p.1 p.2) [] }.placeInstruction w

/-- The step from `s` answers a next state in which `p` holds. -/
def stepGives (s : State) (p : State → Bool) : Bool :=
  match step s with
  | .next t => p t
  | .fault _ => false
  | .refused _ => false

/-- The step from `s` is refused with `q`. -/
def stepRefuses (s : State) (q : Refusal) : Bool :=
  match step s with
  | .next _ => false
  | .fault _ => false
  | .refused r => r == q

/-- The step from `s` faults with `f`. -/
def stepFaults (s : State) (f : Fault) : Bool :=
  match step s with
  | .next _ => false
  | .fault g => g == f
  | .refused _ => false

/-- Section 2.2: the pc advances and wraps. -/
theorem test_nop_advances :
    stepGives (machine 0x0010 [(1, 0x1234)] true false false [] 0x07FF)
      (fun t => t.pc == 0x0011 && t.readReg 1 == 0x1234 && t.flags.ZF) = true := by decide

theorem test_nop_wraps :
    stepGives (machine 0xFFFF [] false false false [] 0x0000) (fun t => t.pc == 0x0000) = true := by decide

/-- Section 2.3: Rd = Ra, the address is the old value's. -/
theorem test_lw_same_register :
    stepGives (machine 0 [(0, 0x0001)] false false false [(0x0010, 0x7777)] 0x080F)
      (fun t => t.readReg 0 == 0x7777 && t.pc == 1) = true := by decide

/-- Section 2.3: a negative offset wraps to the top of RAM. -/
theorem test_lw_wraps :
    stepGives (machine 0 [(2, 0x0000)] false false false [(0xFFFF, 0x0043)] 0x095F)
      (fun t => t.readReg 1 == 0x0043) = true := by decide

/-- Section 2.3: a positive sum wraps to cell 0. -/
theorem test_sw_wraps :
    stepGives (machine 0 [(5, 0xFFFF), (6, 0x0001)] false false false [] 0x15DF)
      (fun t => t.ram.read 0x0000 == some 0xFFFF && t.readReg 5 == 0xFFFF && t.readReg 6 == 1) = true := by decide

/-- Section 2.3: Rd = Ra; another cell keeps its content. -/
theorem test_sw_same_register :
    stepGives (machine 0 [(2, 0x0030)] false false false [(0x0031, 7)] 0x1240)
      (fun t => t.ram.read 0x0030 == some 0x0030 && t.ram.read 0x0031 == some 7) = true := by decide

/-- Section 2.4: the source is Ra, the destination Rd. -/
theorem test_movr_direction :
    stepGives (machine 0 [(1, 0xCAFE), (2, 0)] false false false [] 0x1A20)
      (fun t => t.readReg 2 == 0xCAFE && t.readReg 1 == 0xCAFE) = true := by decide

/-- Section 2.4: bits 15:8 are cleared, and bit 7 is not extended. -/
theorem test_movi_zero_extends :
    stepGives (machine 0 [(3, 0xFFFF)] false false false [] 0x23AB) (fun t => t.readReg 3 == 0x00AB) = true := by decide

/-- Section 2.5: wrap without a flag, and Rd = Ra. -/
theorem test_add_wraps :
    stepGives (machine 0 [(1, 0xFFFF), (2, 1)] false false false [] 0x4140)
      (fun t => t.readReg 1 == 0 && t.readReg 2 == 1 && !t.flags.ZF) = true := by decide

theorem test_add_doubles :
    stepGives (machine 0 [(3, 0x4001)] false false false [] 0x4360) (fun t => t.readReg 3 == 0x8002) = true := by decide

/-- Section 2.5: 0x80 adds 128. -/
theorem test_addi_is_unsigned :
    stepGives (machine 0 [(4, 0x0100)] false false false [] 0x4C80) (fun t => t.readReg 4 == 0x0180) = true := by decide

theorem test_addi_wraps :
    stepGives (machine 0 [(4, 0xFF01)] false false false [] 0x4CFF) (fun t => t.readReg 4 == 0) = true := by decide

/-- Section 2.5: SUBI subtracts, wraps and writes no flag. -/
theorem test_subi_wraps :
    stepGives (machine 0 [(4, 0x00FE)] false false false [] 0x54FF) (fun t => t.readReg 4 == 0xFFFF) = true := by decide

theorem test_subi_writes_no_flag :
    stepGives (machine 0 [(2, 0x0001)] false false false [] 0x5201)
      (fun t => t.readReg 2 == 0 && !t.flags.ZF) = true := by decide

/-- The rows of section 2.6: a, b, the three flags, and the codes 1 to 8. -/
def cmpRow (a b : Word) (zf sf of : Bool) (conds : List Bool) : Bool :=
  cmpFlags a b == { ZF := zf, SF := sf, OF := of } &&
    (([1, 2, 3, 4, 5, 6, 7, 8] : List (BitVec 8)).map (flagCond (cmpFlags a b)) == conds.map some) &&
    flagCond (cmpFlags a b) 0 == some true

theorem test_cmp_table_no_overflow :
    (cmpRow 0x0005 0x0005 true false false [true, false, false, true, false, true, false, true] &&
     cmpRow 0x0005 0x0003 false false false [false, true, true, true, false, false, false, true] &&
     cmpRow 0x0003 0x0005 false true false [false, true, false, false, true, true, true, false] &&
     cmpRow 0xFFFF 0x7FFF false true false [false, true, false, false, true, true, true, false] &&
     cmpRow 0xFFFF 0x0001 false true false [false, true, false, false, true, true, true, false] &&
     cmpRow 0x0001 0xFFFF false false false [false, true, true, true, false, false, false, true]) = true := by decide

theorem test_cmp_table_overflow :
    (cmpRow 0x8000 0x0001 false false true [false, true, false, false, true, true, false, true] &&
     cmpRow 0x7FFF 0xFFFF false true true [false, true, true, true, false, false, true, false] &&
     cmpRow 0x8000 0x7FFF false false true [false, true, false, false, true, true, false, true] &&
     cmpRow 0x7FFF 0x8000 false true true [false, true, true, true, false, false, true, false] &&
     cmpRow 0x0000 0x8000 false true true [false, true, true, true, false, false, true, false]) = true := by decide

/-- Section 2.6: the step of CMP R1, R2 takes a from Rd and b from Ra, and leaves both. -/
theorem test_cmp_step :
    stepGives (machine 0 [(1, 0x7FFF), (2, 0xFFFF)] true false false [] 0x6940)
      (fun t => t.flags == { ZF := false, SF := true, OF := true } && t.readReg 1 == 0x7FFF && t.readReg 2 == 0xFFFF &&
        t.pc == 1) = true := by decide

/-- The flag function is a parameter: an override at a pair of operands gives that pair's flags, and no other's. -/
theorem test_cmp_override :
    let c := { defaultConfig with cmpOverrides := [((1, 2), { ZF := true, SF := true, OF := true })] }
    configuredFlags c 1 2 = { ZF := true, SF := true, OF := true } ∧ configuredFlags c 2 1 = cmpFlags 2 1 := by decide

/-- PC_STEP is a parameter: with PC_STEP = 2 a NOP advances the pc by 2. -/
theorem test_pc_step :
    stepGives { machine 0x0010 [] false false false [] 0x0000 with cfg := { defaultConfig with pcStep := 2 } }
      (fun t => t.pc == 0x0012) = true := by decide

/-- Section 2.7. -/
theorem test_setc_writes_one :
    stepGives (machine 0 [] false true true [] 0xAA03) (fun t => t.readReg 2 == 0x0001 && t.flags.SF) = true := by decide

/-- Section 2.7: all 16 bits are written. -/
theorem test_setc_writes_zero :
    stepGives (machine 0 [(2, 0xFFFF)] false false false [] 0xAA05) (fun t => t.readReg 2 == 0x0000) = true := by decide

/-- Section 2.8: the whole register is the target. -/
theorem test_jmp_whole_register :
    stepGives (machine 7 [(5, 0xFFFF)] false false false [] 0x6500) (fun t => t.pc == 0xFFFF) = true := by decide

theorem test_je_taken :
    stepGives (machine 7 [(5, 2)] true false false [] 0x6501) (fun t => t.pc == 2) = true := by decide

theorem test_je_not_taken :
    stepGives (machine 7 [(5, 2)] false false false [] 0x6501) (fun t => t.pc == 8) = true := by decide

theorem test_jne_not_taken :
    stepGives (machine 7 [(5, 2)] true false false [] 0x6502) (fun t => t.pc == 8) = true := by decide

theorem test_jg_not_taken_on_equal :
    stepGives (machine 7 [(5, 0x0100)] true false false [] 0x6503) (fun t => t.pc == 8) = true := by decide

/-- By the row of JGE: SF = OF = 1 is taken. -/
theorem test_jge_taken_on_overflow :
    stepGives (machine 7 [(5, 0x0100)] false true true [] 0x6504) (fun t => t.pc == 0x0100) = true := by decide

theorem test_jl_taken_on_overflow :
    stepGives (machine 7 [(5, 0x0100)] false false true [] 0x6505) (fun t => t.pc == 0x0100) = true := by decide

/-- By the row of JLE: ZF = 1 is taken. -/
theorem test_jle_taken_on_equal :
    stepGives (machine 7 [(5, 0x0100)] true false false [] 0x6506) (fun t => t.pc == 0x0100) = true := by decide

/-- By the row of JS: SF alone counts. -/
theorem test_js_reads_sf :
    stepGives (machine 7 [(5, 0x0100)] false false true [] 0x6507) (fun t => t.pc == 8) = true := by decide

theorem test_jns_wraps_when_not_taken :
    stepGives (machine 0xFFFF [(5, 0x0100)] false true false [] 0x6508) (fun t => t.pc == 0x0000) = true := by decide

/-- Section 3.5, X3 and X4: invalid words are refused. -/
theorem test_step_refuses :
    (stepRefuses (machine 1 [] false false false [] 0x7000) (.unassignedOpcode 0b01110) &&
     stepRefuses (machine 1 [] false false false [] 0x6709) (.reservedCondition 9) &&
     stepRefuses (machine 1 [] false false false [] 0xAB09) (.reservedCondition 9)) = true := by decide

/-- The step from reset, where no program is loaded; a word placed there runs as the next instruction. -/
theorem test_reset_step :
    (stepFaults State.reset (.noInstruction 0) &&
     stepGives (State.reset.withFetchWord 16 0x23AB) (fun t => t.readReg 3 == 0x00AB && t.pc == 1)) = true := by decide

/-! ### Witnesses: the hypotheses of the statements can be met -/

/-- A machine with RAM_WORDS = 16, so that cell 15 is the last. -/
def smallRam (memOrg : MemOrg) (regs : List (RegIdx × Word)) (ram : List (Word × Word)) (w : Word) : State :=
  { machine 0 regs false false false ram w with cfg := { defaultConfig with ramWords := 16, memOrg := memOrg } }

/-- Two instructions, SW R1, +0(R2) and NOP, with R2 = 8: the run of the second stores to no cell and compares nothing. -/
def storeThenNop : State :=
  { machine 0 [(1, 6), (2, 8)] false false false [] 0x1140 with prog := [(0, 0x1140), (1, 0x0000)] }

/-- Parameters other than the spec's choice that collide with no printed opcode. -/
def otherConfig : Config := { defaultConfig with opSw := 0b11111, opSubi := 0b10110 }

/-- Both ends of every range of WordRangesDecode, and both sides of the condition codes' end. -/
theorem test_witness_WordRangesDecode :
    decode defaultConfig 0x07FF = .ok .nop ∧ decode defaultConfig 0x0800 = .ok (.lw 0 0 0) ∧
    decode defaultConfig 0x0FFF = .ok (.lw 7 7 31) ∧ decode defaultConfig 0x1000 = .ok (.sw 0 0 0) ∧
    decode defaultConfig 0x17FF = .ok (.sw 7 7 31) ∧ decode defaultConfig 0x1800 = .ok (.movr 0 0) ∧
    decode defaultConfig 0x1FFF = .ok (.movr 7 7) ∧ decode defaultConfig 0x2000 = .ok (.movi 0 0) ∧
    decode defaultConfig 0x27FF = .ok (.movi 7 255) ∧ decode defaultConfig 0x4000 = .ok (.add 0 0) ∧
    decode defaultConfig 0x47FF = .ok (.add 7 7) ∧ decode defaultConfig 0x4800 = .ok (.addi 0 0) ∧
    decode defaultConfig 0x4FFF = .ok (.addi 7 255) ∧ decode defaultConfig 0x5000 = .ok (.subi 0 0) ∧
    decode defaultConfig 0x57FF = .ok (.subi 7 255) ∧ decode defaultConfig 0x6000 = .ok (.jmp 0 0) ∧
    decode defaultConfig 0x6708 = .ok (.jns 7) ∧ decode defaultConfig 0x67FF = .error (.reservedCondition 255) ∧
    decode defaultConfig 0x6800 = .ok (.cmp 0 0) ∧ decode defaultConfig 0x6FFF = .ok (.cmp 7 7) ∧
    decode defaultConfig 0xA800 = .ok (.setc 0 0) ∧ decode defaultConfig 0xAF08 = .ok (.setc 7 8) ∧
    decode defaultConfig 0xAFFF = .error (.reservedCondition 255) ∧
    decode defaultConfig 0x5FFF = .error (.unassignedOpcode 0b01011) := by decide

theorem test_witness_CollidingOpcodesResolve :
    defaultConfig.Valid ∧ otherConfig.Valid ∧ opcodeOf 0x0944 = 0b00001 ∧ opcodeOf 0x4CFF = 0b01001 ∧
    opcodeOf 0x1144 = defaultConfig.opSw ∧ opcodeOf 0x54FF = defaultConfig.opSubi ∧ opcodeOf 0xFFFF = otherConfig.opSw ∧
    decode otherConfig 0xFFFF = .ok (.sw 7 7 31) ∧ opcodeOf 0xB5FF = otherConfig.opSubi := by decide

theorem test_witness_IgnoredBitsTakeNoPart :
    opcodeOf 0x07FF = 0b00000 ∧ opcodeOf 0x1A20 ∈ [0b00011, 0b01000, 0b01101] ∧
    (0x1A20 : Word) >>> 5 = (0x1A3F : Word) >>> 5 := by decide

theorem test_witness_DecodeOfEncode :
    otherConfig.Valid ∧ (Instr.jmp 5 0).wellFormed = true ∧ (Instr.jmp 5 8).wellFormed = true ∧
    (Instr.jmp 5 8).canonical = .jns 5 ∧ (Instr.setc 3 8).wellFormed = true := by decide

/-- An ignored bit that is set does not come back. -/
theorem test_witness_EncodeOfDecode :
    decode defaultConfig 0x1A3F = .ok (.movr 2 1) ∧ encode defaultConfig (.movr 2 1) = 0x1A3F &&& 0xFFE0 := by decide

theorem test_witness_InvalidWordsAreRefused :
    (machine 0 [] false false false [] 0x2800).fetch = .ok 0x2800 ∧
    decode defaultConfig 0x2800 = .error (.unassignedOpcode 0b00101) ∧ printedOperation 0b00101 = none ∧
    (machine 0 [] false false false [] 0x6509).fetch = .ok 0x6509 ∧
    decode defaultConfig 0x6509 = .error (.reservedCondition 9) := ⟨rfl, rfl, rfl, rfl, rfl⟩

theorem test_witness_ReservedConditionsAreRefused :
    (machine 0 [] false false false [] 0x6509).fetch = .ok 0x6509 ∧ opcodeOf 0x6509 = 0b01100 ∧
    8 < (imm8Of 0x6509).toNat ∧ (machine 0 [] false false false [] 0xABFF).fetch = .ok 0xABFF ∧
    opcodeOf 0xABFF = 0b10101 ∧ 8 < (imm8Of 0xABFF).toNat := ⟨rfl, rfl, by decide, rfl, rfl, by decide⟩

/-- One word for each mask with which an instruction's statement begins. -/
theorem test_witness_opcode_masks :
    (0x07FF : Word) &&& 0xF800 = 0x0000 ∧ (0x0FFF : Word) &&& 0xF800 = 0x0800 ∧ (0x17FF : Word) &&& 0xF800 = 0x1000 ∧
    (0x1FFF : Word) &&& 0xF800 = 0x1800 ∧ (0x27FF : Word) &&& 0xF800 = 0x2000 ∧ (0x47FF : Word) &&& 0xF800 = 0x4000 ∧
    (0x4FFF : Word) &&& 0xF800 = 0x4800 ∧ (0x57FF : Word) &&& 0xF800 = 0x5000 ∧ (0x6FFF : Word) &&& 0xF800 = 0x6800 ∧
    (0xAF08 : Word) &&& 0xF800 = 0xA800 ∧ (imm8Of 0xAF08).toNat ≤ 8 ∧ 8 < (imm8Of 0xAF09).toNat ∧
    (0x6708 : Word) &&& 0xF800 = 0x6000 ∧ (imm8Of 0x6708).toNat ≤ 8 ∧ 8 < (imm8Of 0x6709).toNat := by decide

/-- The last cell, written, in both organisations. -/
theorem test_witness_LwLoadsTheAddressedCell :
    effectiveAddress ((smallRam .separate [(2, 14)] [(15, 9)] 0x0941).readReg 2) 1 = 15 ∧
    Accessible (smallRam .separate [(2, 14)] [(15, 9)] 0x0941) 15 ∧
    Accessible (smallRam .unified [(2, 14)] [(15, 9)] 0x0941) 15 ∧
    (smallRam .unified [(2, 14)] [(15, 9)] 0x0941).ram.read 15 = some 9 :=
  ⟨rfl, ⟨by decide, by decide⟩, ⟨by decide, by decide⟩, rfl⟩

/-- The first address that RAM does not have. -/
theorem test_witness_LwLoadsTheAddressedCell_out_of_range :
    effectiveAddress ((smallRam .separate [(2, 15)] [] 0x0941).readReg 2) 1 = 16 ∧
    (smallRam .separate [(2, 15)] [] 0x0941).cfg.ramWords ≤ (16 : Word).toNat ∧
    stepFaults (smallRam .separate [(2, 15)] [] 0x0941) (.ramOutOfRange 16) = true := ⟨rfl, by decide, by decide⟩

theorem test_witness_LwOfUnwrittenCellGivesLaunchValue :
    effectiveAddress ((machine 0 [(2, 14)] false false false [] 0x0941).readReg 2) 1 = 15 ∧
    Accessible (machine 0 [(2, 14)] false false false [] 0x0941) 15 ∧
    (machine 0 [(2, 14)] false false false [] 0x0941).ram.read 15 = none := ⟨rfl, ⟨by decide, by decide⟩, rfl⟩

theorem test_witness_SwStoresToTheAddressedCell :
    effectiveAddress ((smallRam .unified [(2, 14)] [] 0x1141).readReg 2) 1 = 15 ∧
    Accessible (smallRam .unified [(2, 14)] [] 0x1141) 15 ∧
    effectiveAddress ((smallRam .separate [(2, 15)] [] 0x1141).readReg 2) 1 = 16 ∧
    stepFaults (smallRam .separate [(2, 15)] [] 0x1141) (.ramOutOfRange 16) = true :=
  ⟨rfl, ⟨by decide, by decide⟩, rfl, by decide⟩

/-- Under MEM_ORG = unified the program text at address 0 is not written. -/
theorem test_witness_SwStoresToTheAddressedCell_text :
    effectiveAddress ((smallRam .unified [(2, 0)] [] 0x1140).readReg 2) 0 = 0 ∧
    (0 : Word).toNat < (smallRam .unified [(2, 0)] [] 0x1140).cfg.ramWords ∧
    (smallRam .unified [(2, 0)] [] 0x1140).cfg.memOrg = .unified ∧
    ((smallRam .unified [(2, 0)] [] 0x1140).prog.read 0).isSome ∧
    stepFaults (smallRam .unified [(2, 0)] [] 0x1140) (.programText 0) = true :=
  ⟨rfl, by decide, rfl, rfl, by decide⟩

theorem test_witness_condition_codes : (8 : BitVec 8).toNat ≤ 8 ∧ 8 < (9 : BitVec 8).toNat ∧ 8 < (255 : BitVec 8).toNat := by
  decide

theorem test_witness_EveryInstructionCompletes :
    65536 ≤ State.reset.cfg.ramWords ∧ State.reset.cfg.memOrg = .separate ∧ (Instr.setc 3 8).wellFormed = true ∧ (Instr.lw 3 7 0b10000).wellFormed = true := by
  decide

theorem test_witness_RegistersReadAndWritten :
    ∃ t, exec (.movr 2 1) State.reset = .next t ∧ writtenReg (.movr 2 1) ≠ some 1 ∧ 2 ∉ readRegs (.movr 2 1) ∧
      3 ∉ readRegs (.movr 2 1) := ⟨_, rfl, by decide, by decide, by decide⟩

/-- A jump taken, a jump not taken, and an instruction that is no jump. -/
theorem test_witness_PcAdvancesUnlessJumpTaken :
    (∃ t, exec (.je 5) (machine 7 [(5, 2)] true false false [] 0) = .next t ∧ t.pc = 2) ∧
    (∃ t, exec (.je 5) (machine 7 [(5, 2)] false false false [] 0) = .next t ∧ t.pc = 8) ∧
    (∃ t, exec .nop State.reset = .next t) ∧ jumpOperands (.je 5) = some (5, 1) ∧ jumpOperands .nop = none :=
  ⟨⟨_, rfl, rfl⟩, ⟨_, rfl, rfl⟩, ⟨_, rfl⟩, rfl, rfl⟩

/-- For the second clause: flags that differ, under which SETC with code 7 finds the same condition. -/
theorem test_witness_FlagsAreCmpsAlone :
    (∃ t, exec (.cmp 1 1) State.reset = .next t ∧ t.flags ≠ State.reset.flags) ∧
    (∃ t, exec (.setc 3 7) State.reset = .next t) ∧ State.reset.flags ≠ { ZF := false, SF := true, OF := false } ∧
    (∀ rd code, jumpOperands (.setc 3 7) = some (rd, code) ∨ Instr.setc 3 7 = .setc rd code →
      flagCond { ZF := false, SF := true, OF := false } code = flagCond State.reset.flags code) := by
  refine ⟨⟨_, rfl, by decide⟩, ⟨_, rfl⟩, by decide, ?_⟩
  rintro rd code (h | h)
  · cases h
  · cases h; rfl

theorem test_witness_RamIsWrittenBySwAlone :
    ∃ t, exec (.sw 1 2 4) State.reset = .next t ∧
      t.ram.read (effectiveAddress (State.reset.readReg 2) 4) ≠
        State.reset.ram.read (effectiveAddress (State.reset.readReg 2) 4) := ⟨_, rfl, by decide⟩

/-- Under both organisations: an instruction in the text, in a written cell, and nowhere. -/
theorem test_witness_FetchReadsTheProgramText :
    (machine 0 [] false false false [] 0x23AB).cfg.memOrg = .separate ∧
    (machine 0 [] false false false [] 0x23AB).endPc ≠ some 0 ∧
    (machine 0 [] false false false [] 0x23AB).prog.read 0 = some 0x23AB ∧ State.reset.prog.read 0 = none ∧
    (smallRam .unified [] [(15, 0x2001)] 0x23AB).fetch = .ok 0x23AB ∧
    ((smallRam .unified [] [(15, 0x2001)] 0x23AB).setPc 15).fetch = .ok 0x2001 ∧
    stepFaults ((smallRam .unified [] [(15, 0x2001)] 0x23AB).setPc 14) (.noInstruction 14) = true ∧
    stepFaults ((smallRam .unified [] [] 0x23AB).setPc 16) (.noInstruction 16) = true := by
  refine ⟨rfl, by decide, rfl, rfl, rfl, rfl, by decide, by decide⟩

/-- LW reaches a written cell under MEM_ORG = separate, and program text is out of its reach under unified. -/
theorem test_witness_FetchReadsTheProgramText_lw :
    (∃ t, exec (.lw 1 2 0) (machine 0 [(2, 0)] false false false [(0, 5)] 0x0940) = .next t ∧ t.readReg 1 = 5) ∧
    stepFaults (smallRam .unified [(2, 0)] [] 0x0940) (.programText 0) = true :=
  ⟨⟨_, rfl, rfl⟩, by decide⟩

/-- Under MEM_ORG = unified: SW R1, +0(R2) at address 0 stores to address 1, which is fetched next. -/
theorem test_witness_FetchReadsTheProgramText_store :
    ∃ t, exec (.sw 1 2 0) (smallRam .unified [(1, 0x2001), (2, 1)] [] 0x1140) = .next t ∧
      effectiveAddress ((smallRam .unified [(1, 0x2001), (2, 1)] [] 0x1140).readReg 2) 0 = 1 ∧
      RunAvoiding (StoresTo 1) t t ∧ t.pc = 1 ∧ t.endPc ≠ some t.pc ∧ t.fetch = .ok 0x2001 :=
  ⟨_, rfl, rfl, .refl _, rfl, by decide, rfl⟩

/-- A jump to an address without an instruction: the next step is stuck. And a jump to itself. -/
theorem test_witness_JmpGoesToTheRegister :
    ∃ t, exec (.jmp 5 0) (machine 7 [(5, 2)] false false false [] 0x6500) = .next t ∧
      (machine 7 [(5, 2)] false false false [] 0x6500).instructionAt 2 = none ∧
      (machine 7 [(5, 2)] false false false [] 0x6500).endPc ≠ some 2 ∧ stepFaults t (.noInstruction 2) = true ∧
      (machine 7 [(5, 7)] false false false [] 0x6500).readReg 5 = (machine 7 [(5, 7)] false false false [] 0x6500).pc :=
  ⟨_, rfl, rfl, by decide, by decide, rfl⟩

/-- LW and SW that complete, and an instruction that is neither. -/
theorem test_witness_EffectiveAddressWraps :
    (∃ t, exec (.lw 1 2 0) (machine 0 [(2, 8)] false false false [(8, 5)] 0x0940) = .next t ∧ t.readReg 2 = 8) ∧
    (∃ t, exec (.sw 1 2 0) (machine 0 [(2, 8)] false false false [] 0x1140) = .next t ∧ t.readReg 2 = 8) ∧
    (∃ t, exec .nop State.reset = .next t ∧ ∀ rd ra simm5, Instr.nop ≠ .lw rd ra simm5 ∧ Instr.nop ≠ .sw rd ra simm5) :=
  ⟨⟨_, rfl, rfl⟩, ⟨_, rfl, rfl⟩, ⟨_, rfl, by decide⟩⟩

/-- The row 0x8000, 0x0001 of section 2.6. -/
theorem test_witness_CmpFlagsAreOfTheDifference :
    (0x7FFF : Word) = BitVec.ofInt 16 ((0x8000 : Word).toNat - (0x0001 : Word).toNat) ∧
    State.reset.cfg.cmpOverrides = [] ∧ cmpFlags 0x8000 0x0001 = { ZF := false, SF := false, OF := true } := by decide

/-- The flag function of the default parameters is without overrides and gives only flags of the form CMP can leave. -/
theorem test_witness_StepKeepsFlagsCoherent :
    defaultConfig.cmpOverrides = [] ∧ ∀ a b, (configuredFlags defaultConfig a b).Coherent := by
  refine ⟨rfl, fun a b h => ?_⟩
  change (a - b == 0) = true at h
  have hab : a - b = 0 := by simpa using h
  obtain rfl : a = b := sub_eq_zero.1 hab
  change (a - a).msb = false ∧ (a.msb != a.msb && (a - a).msb != a.msb) = false
  simp

/-- The parameters that EveryFlagFunctionIsAConfiguration speaks of are those of a state, for any list of overrides. -/
theorem test_witness_EveryFlagFunctionIsAConfiguration (l : List ((Word × Word) × Flags)) :
    (State.resetWith { defaultConfig with cmpOverrides := l }).cfg = { defaultConfig with cmpOverrides := l } := rfl

/-- The flag function of the default parameters has the named properties of R50. -/
theorem test_witness_named_properties :
    ZeroFlagIsEquality storeThenNop.cfg ∧ FlagsOrderSigned storeThenNop.cfg ∧ SignFlagIsBit15 storeThenNop.cfg := by
  refine ⟨fun a b => ?_, fun a b => ?_, fun a b => ?_⟩
  · change (a - b == 0) = true ↔ a = b
    exact beq_iff_eq.trans sub_eq_zero
  · change (a - b).msb ≠ (a.msb != b.msb && (a - b).msb != a.msb) ↔ a.toInt < b.toInt
    have ha := BitVec.toInt_lt (x := a)
    have ha' := BitVec.le_toInt (x := a)
    have hb := BitVec.toInt_lt (x := b)
    have hb' := BitVec.le_toInt (x := b)
    simp only [BitVec.msb_eq_toInt, BitVec.toInt_sub]
    generalize a.toInt = x at *
    generalize b.toInt = y at *
    have hr := Int.bmod_def (x - y) (2 ^ 16)
    generalize (x - y).bmod (2 ^ 16) = r at *
    by_cases h1 : x < 0 <;> by_cases h2 : y < 0 <;> by_cases h3 : r < 0 <;> simp [h1, h2, h3] <;> split_ifs at hr <;> omega
  · change (a - b).msb = _
    rw [BitVec.msb_eq_getLsbD_last]
    congr 1
    apply BitVec.eq_of_toNat_eq
    have := a.isLt
    have := b.isLt
    simp only [BitVec.toNat_sub, BitVec.toNat_ofInt]
    omega

/-- A run of one step from a state of the invariant, whose flags CMP can leave, to the next. -/
theorem test_witness_steps :
    (machine 0 [(5, 3)] false false false [] 0x1140).Inv ∧ (machine 0 [(5, 3)] false false false [] 0x1140).flags.Coherent ∧
    (∃ t, step (machine 0 [(5, 3)] false false false [] 0x1140) = .next t ∧
      Host.Core.run core 1 (machine 0 [(5, 3)] false false false [] 0x1140) = .next t) ∧
    (machine 0 [(5, 3)] false false false [] 0x1140).fetch = .ok 0x1140 ∧
    decode (machine 0 [(5, 3)] false false false [] 0x1140).cfg 0x1140 = .ok (.sw 1 2 0) := by
  refine ⟨⟨by decide, by decide, fun a h => ?_, fun h => ?_⟩, fun h => ?_, ⟨_, rfl, rfl⟩, rfl, rfl⟩
  · exact absurd h Bool.false_ne_true
  · cases h
  · cases h

/-- The invariant under MEM_ORG = unified, with a written cell and program text. -/
theorem test_witness_StepKeepsTheInvariant_unified : (smallRam .unified [] [(15, 0x2001)] 0x23AB).Inv := by
  have hread : ∀ a : Word, ((smallRam .unified [] [(15, 0x2001)] 0x23AB).ram.read a).isSome → a = 15 := fun a h => by
    by_contra hne
    have : (15 : Nat) ≠ a.toNat := fun e => hne (BitVec.eq_of_toNat_eq e.symm)
    change ((if 15 = a.toNat then some _ else none : Option Word)).isSome at h
    simp [this] at h
  refine ⟨by decide, by decide, fun a h => ?_, fun _ a h => ?_⟩
  · rw [hread a h]
    decide
  · rw [hread a h]
    rfl

/-- Each way of stopping: no instruction, END_PC, an address out of RAM, an invalid word. -/
theorem test_witness_StepStopsOnlyWhereListed :
    (stepFaults State.reset (.noInstruction 0) && stepFaults { State.reset with endPc := some 0 } .endOfRun &&
     stepFaults (smallRam .separate [(2, 15)] [] 0x0941) (.ramOutOfRange 16) &&
     stepRefuses (machine 0 [] false false false [] 0x2800) (.unassignedOpcode 0b00101)) = true := by decide

/-- Section 3.5, X6: a JMP to itself. -/
theorem test_witness_RunsEndAtEndPcOrSpin :
    NextInstr (machine 1 [(7, 1)] false false false [] 0x6700) (.jmp 7 0) ∧
    (machine 1 [(7, 1)] false false false [] 0x6700).readReg 7 = (machine 1 [(7, 1)] false false false [] 0x6700).pc ∧
    { State.reset with endPc := some 0 }.endPc = some { State.reset with endPc := some 0 }.pc :=
  ⟨⟨_, rfl, rfl⟩, rfl, rfl⟩

theorem test_witness_PlacedWordIsFetchedNext :
    State.reset.cfg.memOrg = .separate ∧
    ((smallRam .unified [] [] 0).setPc 15).pc.toNat < ((smallRam .unified [] [] 0).setPc 15).cfg.ramWords ∧
    ({ State.reset with endPc := some 0 }.withFetchWord 16 0x23AB).fetch = .ok 0x23AB := ⟨rfl, by decide, rfl⟩

theorem test_witness_LwReadsTheLatestStore :
    ∃ s₁ s₂, effectiveAddress (storeThenNop.readReg 2) 0 = 8 ∧ Accessible storeThenNop 8 ∧
      exec (.sw 1 2 0) storeThenNop = .next s₁ ∧ RunAvoiding (StoresTo 8) s₁ s₂ ∧ s₂.pc = 2 ∧
      effectiveAddress (s₂.readReg 2) 0 = 8 ∧ RunAvoiding (StoresTo 8) s₁ s₁ ∧ s₁.ram.read 8 = some 6 := by
  refine ⟨_, _, rfl, ⟨by decide, by decide⟩, rfl, .tail (.refl _) ?_ rfl, rfl, rfl, .refl _, rfl⟩
  rintro ⟨rd, ra, simm5, ⟨w, hw, hd⟩, -⟩
  cases hw
  cases hd

/-- CMP R1, R2 and NOP; the named properties are those of test_witness_named_properties. -/
theorem test_witness_ConditionsSpeakOfTheLatestCmp :
    storeThenNop.cfg.cmpOverrides = [] ∧ ∃ s₁ s₂, storeThenNop.readReg 1 = 6 ∧ storeThenNop.readReg 2 = 8 ∧ exec (.cmp 1 2) storeThenNop = .next s₁ ∧
      RunAvoiding ComparesNext s₁ s₂ ∧ s₂.pc = 2 := by
  refine ⟨rfl, _, _, rfl, rfl, rfl, .tail (.refl _) ?_ rfl, rfl⟩
  rintro ⟨rd, ra, w, hw, hd⟩
  cases hw
  cases hd

/-- MOVI $0xAB, %R3 from reset reads nothing unwritten, and the states differ in a register nothing has written. -/
theorem test_witness_CleanRunsIgnoreUnwrittenState :
    ∃ s', CleanRun .nothing (State.reset.withFetchWord 16 0x23AB) (Written.nothing.after (.movi 3 0xAB)) s' ∧
      s'.readReg 3 = 0x00AB ∧ Written.nothing.Covers (.movi 3 0xAB) ∧
      AgreeOn .nothing (State.reset.withFetchWord 16 0x23AB)
        (((State.reset.withFetchWord 16 0x23AB).writeReg 5 1).setFlags { ZF := false, SF := false, OF := false }) := by
  have hc : Written.nothing.Covers (.movi 3 0xAB) := by
    refine ⟨fun r h => ?_, fun h => ?_⟩
    · cases h
    · cases h
  refine ⟨_, .tail .refl ⟨_, rfl, rfl⟩ hc rfl, rfl, hc, rfl, rfl, ⟨rfl, rfl, rfl⟩, fun r h => ?_, fun h => ?_⟩
  · cases h
  · cases h

/-- Two writes in either order give the same data, with distinct addresses. -/
theorem test_witness_CanonicalMemoriesAreExtensional :
    (Memory.write (Memory.write [] 2 7) 1 6).wf ∧ (Memory.write (Memory.write [] 1 6) 2 7).wf ∧
    Memory.write (Memory.write [] 2 7) 1 6 = Memory.write (Memory.write [] 1 6) 2 7 ∧
    ¬Memory.wf [(2, 7), (1, 6)] ∧ ¬Memory.wf [(1, 6), (1, 6)] := by decide

theorem test_witness_AssemblyLinesAssembleBack :
    AsmLine.assemble ⟨.SETC, [.sigilImm 8, .sigilReg 3]⟩ = some (.setc 3 8) ∧
    AsmLine.assemble ⟨.SETC, [.sigilImm 9, .sigilReg 3]⟩ = none ∧
    AsmLine.assemble ⟨.MOVR, [.sigilReg 1, .sigilReg 2]⟩ = some (.movr 2 1) ∧
    AsmLine.assemble ⟨.ADD, [.sigilReg 1, .sigilReg 2]⟩ = some (.add 1 2) := by decide

end Sys2Proof.Tests
end

/-! Registers, pc and flags over all instructions (spec/10_state.md R11, R13, R14): what a completing instruction leaves
alone, and that its outcome depends on nothing but what it reads. -/

namespace Sys2Proof.Machine

/-! ### Frames of a completing instruction -/

theorem State.readReg_writeReg (s : State) (r q : RegIdx) (v : Word) :
    (s.writeReg r v).readReg q = if q = r then v else s.readReg q := by
  by_cases h : q = r
  · simp [h]
  · simp [h]

theorem Effect.readReg_eq {i : Instr} {s t : State} (h : Effect i s t) {r : RegIdx} (hr : writtenReg i ≠ some r) :
    t.readReg r = s.readReg r := by
  cases h with
  | register rd v hw =>
    have hne : r ≠ rd := fun e => hr (e ▸ hw)
    simp [hne]
  | advance | store | compare | jump => rfl

theorem Effect.flags_eq {i : Instr} {s t : State} (h : Effect i s t) (hf : ∀ rd ra, i ≠ .cmp rd ra) :
    t.flags = s.flags := by
  cases h with
  | compare rd ra hi => exact absurd hi (hf rd ra)
  | advance | register | store | jump => rfl

theorem Effect.pcAdvanced {i : Instr} {s t : State} (h : Effect i s t) (hj : jumpOperands i = none) :
    PcAdvanced s t := by
  cases h with
  | jump rd code hi => rw [hj] at hi; cases hi
  | advance | register | store | compare => exact pcAdvanced_of_pc rfl

/-- All names of JMP are one operation, which reads the target register and writes no register and no flag. -/
theorem jump_of_jumpOperands {i : Instr} {rd : RegIdx} {code : BitVec 8} (h : jumpOperands i = some (rd, code)) :
    readRegs i = [rd] ∧ writtenReg i = none ∧ writesFlags i = false ∧ ∀ s, exec i s = s.jumpOn code rd := by
  cases i <;> cases h <;> exact ⟨rfl, rfl, rfl, fun _ => rfl⟩

/-! ### Two runs of one instruction -/

/-- The states give instruction `i` the same to read, the pc excepted: the registers it reads, the condition it tests, RAM,
and what is fixed at launch. -/
structure ReadsAgree (i : Instr) (s s' : State) : Prop where
  regs : ∀ r ∈ readRegs i, s'.readReg r = s.readReg r
  conds : ∀ rd code, jumpOperands i = some (rd, code) ∨ i = .setc rd code → flagCond s'.flags code = flagCond s.flags code
  ram : s'.ram = s.ram
  launch : SameLaunch s s'

/-- What `i` writes on its way from `s` to `t` it writes on its way from `s'` to `u` too, and the rest of `u` is as in `s'`. -/
structure SameEffect (i : Instr) (s s' t u : State) : Prop where
  regs : ∀ r, u.readReg r = if writtenReg i = some r then t.readReg r else s'.readReg r
  flags : u.flags = if writesFlags i then t.flags else s'.flags
  ram : u.ram = t.ram
  launch : SameLaunch t u
  pc : s'.pc = s.pc → u.pc = t.pc

/-- From `s` and from `s'`, `i` completes with the same effect or stops for the same reason. -/
inductive SameOutcome (i : Instr) (s s' : State) :
    Host.Outcome State Fault Refusal → Host.Outcome State Fault Refusal → Prop where
  | next {t u : State} (h : SameEffect i s s' t u) : SameOutcome i s s' (.next t) (.next u)
  | fault (f : Fault) : SameOutcome i s s' (.fault f) (.fault f)
  | refused (q : Refusal) : SameOutcome i s s' (.refused q) (.refused q)

section
variable {i : Instr} {s s' : State}

theorem accessFault_congr (h : SameLaunch s s') (a : Word) : s'.accessFault a = s.accessFault a := by
  obtain ⟨hprog, -, hcfg⟩ := h
  simp only [State.accessFault, hprog, hcfg]

theorem loadWord_congr (hram : s'.ram = s.ram) (h : SameLaunch s s') (a : Word) : s'.loadWord a = s.loadWord a := by
  simp only [State.loadWord, accessFault_congr h, State.ramValue, hram]

theorem advance_pc_congr (h : SameLaunch s s') (hpc : s'.pc = s.pc) : s'.advance.pc = s.advance.pc := by
  obtain ⟨-, -, hcfg⟩ := h
  simp [hpc, hcfg]

theorem sameEffect_advance (h : ReadsAgree i s s') (hw : writtenReg i = none) (hf : writesFlags i = false) :
    SameEffect i s s' s.advance s'.advance :=
  ⟨fun r => by simp [hw], by simp [hf], h.ram, h.launch, advance_pc_congr h.launch⟩

theorem sameEffect_setPc (h : ReadsAgree i s s') (hw : writtenReg i = none) (hf : writesFlags i = false) (p : Word) :
    SameEffect i s s' (s.setPc p) (s'.setPc p) :=
  ⟨fun r => by simp [hw], by simp [hf], h.ram, h.launch, fun _ => rfl⟩

theorem sameOutcome_finishWith (h : ReadsAgree i s s') {rd : RegIdx} (hw : writtenReg i = some rd)
    (hf : writesFlags i = false) (v : Word) : SameOutcome i s s' (s.finishWith rd v) (s'.finishWith rd v) := by
  refine .next ⟨fun r => ?_, by simp [hf], h.ram, h.launch, advance_pc_congr h.launch⟩
  by_cases hr : r = rd
  · simp [hw, hr]
  · simp [hw, hr, Ne.symm hr]

theorem sameOutcome_jumpOn (h : ReadsAgree i s s') {rd : RegIdx} {code : BitVec 8}
    (hj : jumpOperands i = some (rd, code)) : SameOutcome i s s' (exec i s) (exec i s') := by
  obtain ⟨hr, hw, hf, hexec⟩ := jump_of_jumpOperands hj
  have hreg : s'.readReg rd = s.readReg rd := h.regs rd (by simp [hr])
  rw [hexec s, hexec s', State.jumpOn, State.jumpOn, h.conds rd code (.inl hj), hreg]
  rcases flagCond s.flags code with _ | _ | _
  · exact .refused _
  · exact .next (sameEffect_advance h hw hf)
  · exact .next (sameEffect_setPc h hw hf _)

theorem sameOutcome_setc {rd : RegIdx} {code : BitVec 8} (h : ReadsAgree (.setc rd code) s s') :
    SameOutcome (.setc rd code) s s' (execSetc rd code s) (execSetc rd code s') := by
  rw [execSetc, execSetc, h.conds rd code (.inr rfl)]
  cases flagCond s.flags code with
  | none => exact .refused _
  | some b => exact sameOutcome_finishWith h rfl rfl _

theorem sameOutcome_cmp {rd ra : RegIdx} (h : ReadsAgree (.cmp rd ra) s s') :
    SameOutcome (.cmp rd ra) s s' (execCmp rd ra s) (execCmp rd ra s') := by
  obtain ⟨-, -, hcfg⟩ := h.launch
  have hd : s'.readReg rd = s.readReg rd := h.regs rd (by simp [readRegs])
  have ha : s'.readReg ra = s.readReg ra := h.regs ra (by simp [readRegs])
  rw [execCmp, execCmp, hd, ha, hcfg]
  exact .next ⟨fun r => by simp [writtenReg], by simp [writesFlags], h.ram, h.launch, advance_pc_congr h.launch⟩

theorem sameOutcome_lw {rd ra : RegIdx} {simm5 : BitVec 5} (h : ReadsAgree (.lw rd ra simm5) s s') :
    SameOutcome (.lw rd ra simm5) s s' (execLw rd ra simm5 s) (execLw rd ra simm5 s') := by
  have ha : s'.readReg ra = s.readReg ra := h.regs ra (by simp [readRegs])
  rw [execLw, execLw, ha, loadWord_congr h.ram h.launch]
  cases s.loadWord (effectiveAddress (s.readReg ra) simm5) with
  | ok v => exact sameOutcome_finishWith h rfl rfl v
  | error f => exact .fault f

theorem sameOutcome_sw {rd ra : RegIdx} {simm5 : BitVec 5} (h : ReadsAgree (.sw rd ra simm5) s s') :
    SameOutcome (.sw rd ra simm5) s s' (execSw rd ra simm5 s) (execSw rd ra simm5 s') := by
  have hd : s'.readReg rd = s.readReg rd := h.regs rd (by simp [readRegs])
  have ha : s'.readReg ra = s.readReg ra := h.regs ra (by simp [readRegs])
  rw [execSw, execSw, ha, hd, State.storeWord, State.storeWord, accessFault_congr h.launch, h.ram]
  cases s.accessFault (effectiveAddress (s.readReg ra) simm5) with
  | some f => exact .fault f
  | none => exact .next ⟨fun r => rfl, rfl, rfl, h.launch, advance_pc_congr h.launch⟩

/-- An instruction whose reads agree completes with the same effect or stops for the same reason. -/
theorem exec_sameOutcome (h : ReadsAgree i s s') : SameOutcome i s s' (exec i s) (exec i s') := by
  have hread := h.regs
  cases i with
  | nop => exact .next (sameEffect_advance h rfl rfl)
  | lw => exact sameOutcome_lw h
  | sw => exact sameOutcome_sw h
  | movi rd imm8 => exact sameOutcome_finishWith h rfl rfl _
  | movr rd ra =>
    rw [exec, exec, execMovr, execMovr, hread ra (by simp [readRegs])]
    exact sameOutcome_finishWith h rfl rfl _
  | add rd ra =>
    rw [exec, exec, execAdd, execAdd, hread rd (by simp [readRegs]), hread ra (by simp [readRegs])]
    exact sameOutcome_finishWith h rfl rfl _
  | addi rd imm8 =>
    rw [exec, exec, execAddi, execAddi, hread rd (by simp [readRegs])]
    exact sameOutcome_finishWith h rfl rfl _
  | subi rd imm8 =>
    rw [exec, exec, execSubi, execSubi, hread rd (by simp [readRegs])]
    exact sameOutcome_finishWith h rfl rfl _
  | cmp => exact sameOutcome_cmp h
  | setc => exact sameOutcome_setc h
  | jmp | je | jne | jg | jge | jl | jle | js | jns => exact sameOutcome_jumpOn h rfl

/-- An instruction that completes does so from every state that gives it the same to read, with the same effect. -/
theorem exec_next_of_readsAgree (h : ReadsAgree i s s') {t : State} (ht : exec i s = .next t) :
    ∃ u, exec i s' = .next u ∧ SameEffect i s s' t u := by
  have hout := exec_sameOutcome h
  rw [ht] at hout
  generalize exec i s' = o at hout
  cases hout with
  | next he => exact ⟨_, rfl, he⟩

/-! ### States that differ in one field -/

theorem readsAgree_writeReg {r : RegIdx} (hr : r ∉ readRegs i) (v : Word) : ReadsAgree i s (s.writeReg r v) where
  regs _ hq := State.readReg_writeReg_ne s v fun e => hr (e ▸ hq)
  conds _ _ _ := rfl
  ram := rfl
  launch := ⟨rfl, rfl, rfl⟩

theorem readsAgree_setPc (p : Word) : ReadsAgree i s (s.setPc p) where
  regs _ _ := rfl
  conds _ _ _ := rfl
  ram := rfl
  launch := ⟨rfl, rfl, rfl⟩

theorem readsAgree_setFlags {f : Flags}
    (hf : ∀ rd code, jumpOperands i = some (rd, code) ∨ i = .setc rd code → flagCond f code = flagCond s.flags code) :
    ReadsAgree i s (s.setFlags f) where
  regs _ _ := rfl
  conds := hf
  ram := rfl
  launch := ⟨rfl, rfl, rfl⟩

theorem SameEffect.readReg_eq {t u : State} (h : SameEffect i s s' t u) (ht : Effect i s t) {r : RegIdx}
    (hr : s'.readReg r = s.readReg r) : u.readReg r = t.readReg r := by
  rw [h.regs r]
  split
  · rfl
  · rename_i hw
    rw [hr, ht.readReg_eq hw]

theorem SameEffect.flags_eq {t u : State} (h : SameEffect i s s' t u) (ht : Effect i s t)
    (hf : s'.flags = s.flags) : u.flags = t.flags := by
  rw [h.flags]
  split
  · rfl
  · rename_i hw
    refine hf.trans (ht.flags_eq fun rd ra hi => ?_).symm
    exact hw (hi ▸ rfl)

end

/-! ### The statements -/

theorem exec_writeReg_of_not_read {i : Instr} {s t : State} {r : RegIdx} (v : Word) (hr : r ∉ readRegs i)
    (h : exec i s = .next t) :
    ∃ u, exec i (s.writeReg r v) = .next u ∧ (∀ q, q ≠ r → u.readReg q = t.readReg q) ∧
      u.readReg r = (if writtenReg i = some r then t.readReg r else v) ∧
      u.pc = t.pc ∧ u.flags = t.flags ∧ u.ram = t.ram ∧ SameLaunch t u := by
  obtain ⟨u, hu, he⟩ := exec_next_of_readsAgree (readsAgree_writeReg hr v) h
  have ht := exec_effect h
  have hreg : u.readReg r = if writtenReg i = some r then t.readReg r else v := by
    simpa using he.regs r
  exact ⟨u, hu, fun q hq => he.readReg_eq ht (State.readReg_writeReg_ne s v hq), hreg, he.pc rfl, he.flags_eq ht rfl,
    he.ram, he.launch⟩

/-- Settles O30: a register that is not read leaves the reads alike, so the two runs have the same effect. -/
theorem registersReadAndWritten : Obligations.RegistersReadAndWritten :=
  ⟨State.readReg_writeReg, fun _ _ _ _ h hr => (exec_effect h).readReg_eq hr,
    fun _ _ _ _ v hr h => exec_writeReg_of_not_read v hr h,
    fun _ _ _ _ => ⟨rfl, rfl, rfl, rfl, rfl, rfl, rfl, rfl, rfl, rfl, rfl⟩⟩

theorem exec_jump_pc {i : Instr} {s t : State} {rd : RegIdx} {code : BitVec 8} (hj : jumpOperands i = some (rd, code))
    (h : exec i s = .next t) :
    (flagCond s.flags code = some true ∧ t.pc = s.readReg rd) ∨
      (flagCond s.flags code = some false ∧ PcAdvanced s t) := by
  obtain ⟨-, -, -, hexec⟩ := jump_of_jumpOperands hj
  rw [hexec s] at h
  rcases State.jumpOn_eq_next h with ⟨hc, rfl⟩ | ⟨hc, rfl⟩
  · exact .inl ⟨hc, rfl⟩
  · exact .inr ⟨hc, pcAdvanced_of_pc rfl⟩

theorem exec_setPc {i : Instr} {s t : State} (p : Word) (h : exec i s = .next t) :
    ∃ u, exec i (s.setPc p) = .next u ∧ SameRegs t u ∧ u.flags = t.flags ∧ u.ram = t.ram ∧ SameLaunch t u := by
  obtain ⟨u, hu, he⟩ := exec_next_of_readsAgree (readsAgree_setPc p) h
  have ht := exec_effect h
  exact ⟨u, hu, fun r => he.readReg_eq ht rfl, he.flags_eq ht rfl, he.ram, he.launch⟩

/-- Settles O31: no instruction reads the pc but to advance it, and all names of JMP are one operation. -/
theorem pcAdvancesUnlessJumpTaken : Obligations.PcAdvancesUnlessJumpTaken :=
  ⟨rfl, fun _ _ _ h => ⟨fun _ _ hj => exec_jump_pc hj h, (exec_effect h).pcAdvanced, fun p => exec_setPc p h⟩⟩

theorem exec_setFlags {i : Instr} {s t : State} {f : Flags}
    (hf : ∀ rd code, jumpOperands i = some (rd, code) ∨ i = .setc rd code → flagCond f code = flagCond s.flags code)
    (h : exec i s = .next t) :
    ∃ u, exec i (s.setFlags f) = .next u ∧ SameRegs t u ∧ u.pc = t.pc ∧ u.ram = t.ram ∧ SameLaunch t u := by
  obtain ⟨u, hu, he⟩ := exec_next_of_readsAgree (readsAgree_setFlags hf) h
  exact ⟨u, hu, fun r => he.readReg_eq (exec_effect h) rfl, he.pc rfl, he.ram, he.launch⟩

/-- Settles O32: CMP is the one effect that writes flags, and flags are read through `flagCond` alone. -/
theorem flagsAreCmpsAlone : Obligations.FlagsAreCmpsAlone := by
  refine ⟨fun i s t h hne => ?_, fun _ _ _ _ hf h => exec_setFlags hf h, fun f g => ?_⟩
  · by_contra hcmp
    exact hne ((exec_effect h).flags_eq fun rd ra hi => hcmp ⟨rd, ra, hi⟩)
  · rw [flagCond_zero, flagCond_zero]

end Sys2Proof.Machine

/-! RAM, fetching and program text (spec/20_memory.md R22, R29): what a completing instruction does with RAM, and what a
fetch finds. -/

namespace Sys2Proof.Machine

/-! ### RAM and launch data over one step and over a run -/

theorem Effect.ram_eq {i : Instr} {s t : State} (h : Effect i s t) (hi : ∀ rd ra simm5, i ≠ .sw rd ra simm5) :
    t.ram = s.ram := by
  cases h with
  | store rd ra simm5 e => exact absurd e (hi rd ra simm5)
  | advance | register | compare | jump => rfl

theorem Effect.ram_read_eq {i : Instr} {s t : State} (h : Effect i s t) {a : Word}
    (ha : ∀ rd ra simm5, i = .sw rd ra simm5 → effectiveAddress (s.readReg ra) simm5 ≠ a) :
    t.ram.read a = s.ram.read a := by
  cases h with
  | store rd ra simm5 e => exact Memory.read_write_ne _ _ (ha rd ra simm5 e).symm
  | advance | register | compare | jump => rfl

theorem Effect.sameLaunch {i : Instr} {s t : State} (h : Effect i s t) : SameLaunch s t := by
  cases h <;> exact ⟨rfl, rfl, rfl⟩

theorem step_sameLaunch {s t : State} (h : step s = .next t) : SameLaunch s t := by
  obtain ⟨_, _, -, -, hexec⟩ := step_eq_next h
  exact (exec_effect hexec).sameLaunch

theorem step_ram_read_eq {s t : State} {a : Word} (ha : ¬StoresTo a s) (h : step s = .next t) :
    t.ram.read a = s.ram.read a := by
  obtain ⟨w, i, hfetch, hdecode, hexec⟩ := step_eq_next h
  refine (exec_effect hexec).ram_read_eq fun rd ra simm5 hi hea => ha ⟨rd, ra, simm5, ⟨w, hfetch, ?_⟩, hea⟩
  rw [hdecode, hi]

theorem SameLaunch.trans {s t u : State} (h : SameLaunch s t) (h' : SameLaunch t u) : SameLaunch s u := by
  obtain ⟨hprog, hend, hcfg⟩ := h
  obtain ⟨hprog', hend', hcfg'⟩ := h'
  exact ⟨hprog'.trans hprog, hend'.trans hend, hcfg'.trans hcfg⟩

theorem RunAvoiding.sameLaunch {avoid : State → Prop} {s t : State} (h : RunAvoiding avoid s t) : SameLaunch s t := by
  induction h with
  | refl => exact ⟨rfl, rfl, rfl⟩
  | tail _ _ hstep ih => exact ih.trans (step_sameLaunch hstep)

/-- A cell that no step of a run stores to holds at the end what it held at the start. -/
theorem RunAvoiding.ram_read_eq {a : Word} {s t : State} (h : RunAvoiding (StoresTo a) s t) :
    t.ram.read a = s.ram.read a := by
  induction h with
  | refl => rfl
  | tail _ havoid hstep ih => exact (step_ram_read_eq havoid hstep).trans ih

/-! ### The effective address (20_memory.md R22) -/

theorem sext16_toInt (simm5 : BitVec 5) : (sext16 simm5).toInt = simm5.toInt :=
  BitVec.toInt_signExtend_of_le (by decide)

theorem simm5_toInt_bounds (simm5 : BitVec 5) : -16 ≤ simm5.toInt ∧ simm5.toInt ≤ 15 :=
  ⟨BitVec.le_toInt simm5, Int.le_of_lt_add_one BitVec.toInt_lt⟩

theorem effectiveAddress_toNat (base : Word) (simm5 : BitVec 5) :
    ((effectiveAddress base simm5).toNat : Int) = (base.toNat + simm5.toInt) % 65536 := by
  rw [← sext16_toInt, effectiveAddress, BitVec.toNat_add, BitVec.toInt_eq_toNat_cond]
  omega

/-! ### Instructions that have nothing to do with RAM -/

theorem jumpOn_with_ram {s t : State} {code : BitVec 8} {rd : RegIdx} (m : Memory) (h : s.jumpOn code rd = .next t) :
    { s with ram := m }.jumpOn code rd = .next { t with ram := m } := by
  rcases State.jumpOn_eq_next h with ⟨hc, rfl⟩ | ⟨hc, rfl⟩
  all_goals rw [State.jumpOn, hc]; rfl

theorem execSetc_with_ram {s t : State} {rd : RegIdx} {code : BitVec 8} (m : Memory)
    (h : execSetc rd code s = .next t) : execSetc rd code { s with ram := m } = .next { t with ram := m } := by
  unfold execSetc at h ⊢
  cases hc : flagCond s.flags code with
  | none => simp [hc] at h
  | some b =>
    simp only [hc] at h ⊢
    cases h
    rfl

/-- An instruction that is neither LW nor SW does the same whatever RAM holds. -/
theorem exec_with_ram {i : Instr} {s t : State} (m : Memory)
    (hi : ∀ rd ra simm5, i ≠ .lw rd ra simm5 ∧ i ≠ .sw rd ra simm5) (h : exec i s = .next t) :
    exec i { s with ram := m } = .next { t with ram := m } := by
  cases i with
  | lw rd ra simm5 => exact absurd rfl (hi rd ra simm5).1
  | sw rd ra simm5 => exact absurd rfl (hi rd ra simm5).2
  | setc => exact execSetc_with_ram m h
  | jmp | je | jne | jg | jge | jl | jle | js | jns => exact jumpOn_with_ram m h
  | nop | movr | movi | add | addi | subi | cmp => cases h; rfl

/-- Settles O34: the address is a sum of numbers modulo 2^16, and the base register of LW and SW is in their frame. -/
theorem effectiveAddressWraps : Obligations.EffectiveAddressWraps := by
  refine ⟨fun base simm5 => ⟨effectiveAddress_toNat base simm5, simm5_toInt_bounds simm5⟩, rfl, rfl,
    fun s t rd ra simm5 => ⟨fun h hne => ?_, fun h => ?_⟩, fun i s t m hi h => ⟨?_, exec_with_ram m hi h⟩⟩
  · exact (exec_effect h).readReg_eq (by simpa [writtenReg] using hne.symm)
  · exact (exec_effect h).readReg_eq (by simp [writtenReg])
  · exact (exec_effect h).ram_eq fun rd ra simm5 => (hi rd ra simm5).2

/-! ### Fetch and access under both organisations (20_memory.md R29) -/

theorem State.instructionAt_of_separate {s : State} (h : s.cfg.memOrg = .separate) (a : Word) :
    s.instructionAt a = s.prog.read a := by
  simp [State.instructionAt, h]

theorem State.instructionAt_of_text {s : State} {a w : Word} (ha : a.toNat < s.cfg.ramWords)
    (h : s.prog.read a = some w) : s.instructionAt a = some w := by
  cases hm : s.cfg.memOrg with
  | separate => simp [State.instructionAt, hm, h]
  | unified => simp [State.instructionAt, hm, h, ha]

/-- Under MEM_ORG = unified, where no program text stands, the instruction of a cell is what is written there. -/
theorem State.instructionAt_of_cell {s : State} {a : Word} (hm : s.cfg.memOrg = .unified)
    (ha : a.toNat < s.cfg.ramWords) (h : s.prog.read a = none) : s.instructionAt a = s.ram.read a := by
  simp [State.instructionAt, hm, h, ha]

theorem step_of_no_instruction {s : State} (hend : s.endPc ≠ some s.pc) (h : s.instructionAt s.pc = none) :
    step s = .fault (.noInstruction s.pc) := by
  simp [step, State.fetch, hend, h]

theorem State.accessFault_of_text {s : State} {a : Word} (hm : s.cfg.memOrg = .unified)
    (ha : a.toNat < s.cfg.ramWords) (h : (s.prog.read a).isSome) : s.accessFault a = some (.programText a) := by
  simp [State.accessFault, hm, ha, h]

theorem State.loadWord_with_prog {s : State} (h : s.cfg.memOrg = .separate) (p : Memory) (a : Word) :
    { s with prog := p }.loadWord a = s.loadWord a := by
  simp [State.loadWord, State.accessFault, State.ramValue, h]

/-- Under MEM_ORG = separate, LW does the same whatever the program text is. -/
theorem execLw_with_prog {s t : State} {rd ra : RegIdx} {simm5 : BitVec 5} (hm : s.cfg.memOrg = .separate)
    (p : Memory) (h : execLw rd ra simm5 s = .next t) :
    execLw rd ra simm5 { s with prog := p } = .next { t with prog := p } := by
  have hreg : { s with prog := p }.readReg ra = s.readReg ra := rfl
  rw [execLw] at h ⊢
  rw [hreg, State.loadWord_with_prog hm]
  cases hl : s.loadWord (effectiveAddress (s.readReg ra) simm5) with
  | ok v => rw [hl] at h; cases h; rfl
  | error f => rw [hl] at h; cases h

theorem exec_lw_of_accessFault {s : State} {ra : RegIdx} {simm5 : BitVec 5} {f : Fault} (rd : RegIdx)
    (h : s.accessFault (effectiveAddress (s.readReg ra) simm5) = some f) : exec (.lw rd ra simm5) s = .fault f := by
  rw [exec, execLw, (State.loadWord_eq_error_iff ..).2 h]

theorem exec_sw_of_accessFault {s : State} {ra : RegIdx} {simm5 : BitVec 5} {f : Fault} (rd : RegIdx)
    (h : s.accessFault (effectiveAddress (s.readReg ra) simm5) = some f) : exec (.sw rd ra simm5) s = .fault f := by
  rw [exec, execSw, (State.storeWord_eq_error_iff ..).2 h]

/-- A SW that completes had an accessible cell, and has stored to it and advanced the pc. -/
theorem exec_sw_eq_next {s t : State} {rd ra : RegIdx} {simm5 : BitVec 5} (h : exec (.sw rd ra simm5) s = .next t) :
    Accessible s (effectiveAddress (s.readReg ra) simm5) ∧
      t = { s with ram := s.ram.write (effectiveAddress (s.readReg ra) simm5) (s.readReg rd) }.advance := by
  rw [exec, execSw] at h
  split at h
  · rename_i u hu
    obtain ⟨ha, rfl⟩ := (State.storeWord_eq_ok_iff ..).1 hu
    cases h
    exact ⟨(State.accessFault_eq_none_iff ..).1 ha, rfl⟩
  · cases h

/-- Under MEM_ORG = unified, what SW has stored is fetched at its address until the cell is stored to again. -/
theorem fetch_of_stored {s t u : State} {rd ra : RegIdx} {simm5 : BitVec 5} (hm : s.cfg.memOrg = .unified)
    (h : exec (.sw rd ra simm5) s = .next t)
    (hrun : RunAvoiding (StoresTo (effectiveAddress (s.readReg ra) simm5)) t u)
    (hpc : u.pc = effectiveAddress (s.readReg ra) simm5) (hend : u.endPc ≠ some u.pc) :
    u.fetch = .ok (s.readReg rd) := by
  obtain ⟨hprog, -, hcfg⟩ := (exec_effect h).sameLaunch.trans hrun.sameLaunch
  obtain ⟨⟨hrange, htext⟩, rfl⟩ := exec_sw_eq_next h
  refine (State.fetch_eq_ok_iff ..).2 ⟨hend, ?_⟩
  rw [hpc, State.instructionAt_of_cell (hcfg ▸ hm) (hcfg ▸ hrange) (hprog ▸ htext hm), hrun.ram_read_eq]
  exact Memory.read_write_self ..

/-- Settles O35: the fetch reads the map that `instructionAt` names, which no step but a store can change. -/
theorem fetchReadsTheProgramText : Obligations.FetchReadsTheProgramText := by
  refine ⟨fun s hm hend => ⟨fun w hw => ?_, fun hnone => ?_⟩,
    fun s rd ra simm5 p hm t h => execLw_with_prog hm p h, fun s t h => (step_sameLaunch h).1,
    fun s hm hend hrange => ⟨fun w hw => ?_, fun w htext hw => ?_⟩,
    fun s t u rd ra simm5 hm h hrun hpc hend => fetch_of_stored hm h hrun hpc hend, ?_⟩
  · exact (State.fetch_eq_ok_iff ..).2 ⟨hend, (State.instructionAt_of_separate hm _).trans hw⟩
  · exact step_of_no_instruction hend ((State.instructionAt_of_separate hm _).trans hnone)
  · exact (State.fetch_eq_ok_iff ..).2 ⟨hend, State.instructionAt_of_text hrange hw⟩
  · exact (State.fetch_eq_ok_iff ..).2 ⟨hend, (State.instructionAt_of_cell hm hrange htext).trans hw⟩
  · rintro s rd ra simm5 _ hm rfl hrange htext
    have hfault := State.accessFault_of_text hm hrange htext
    exact ⟨exec_lw_of_accessFault rd hfault, exec_sw_of_accessFault rd hfault⟩

end Sys2Proof.Machine

/-! Decoding (spec/30_encoding.md R36 to R38, 60_exceptions.md R62): which opcodes and codes make a word invalid, which bits
an encoded or decoded word ignores, and that the machine refuses an invalid word for good. -/

namespace Sys2Proof

/-! ### The two reasons a word is invalid -/

theorem operationOf_eq_none_iff (c : Config) (op : BitVec 5) :
    operationOf c op = none ↔ printedOperation op = none ∧ op ≠ c.opSw ∧ op ≠ c.opSubi := by
  unfold operationOf
  cases printedOperation op with
  | some o => simp
  | none =>
    by_cases hsw : op = c.opSw
    · simp [hsw]
    · simp [hsw]

/-- A printed operation is selected by its printed opcode alone, under all parameters. -/
theorem operationOf_eq_printed_iff {printed : BitVec 5} {o : Operation} (hp : printedOperation printed = some o)
    (c : Config) (op : BitVec 5) : operationOf c op = some o ↔ op = printed :=
  ⟨fun h => (operationOf_eq_some h).symm.trans (printedOperation_eq_some hp c).1,
    fun h => operationOf_printed c (h ▸ hp)⟩

/-- A word whose operation is known is invalid only for its condition code. -/
theorem decodeOperation_eq_error_iff (w : Word) (o : Operation) (e : Invalid) :
    decodeOperation w o = .error e ↔
      (o = .jmp ∨ o = .setc) ∧ 8 < (imm8Of w).toNat ∧ e = .reservedCondition (imm8Of w) := by
  cases o with
  | jmp | setc => simp [decodeOperation, withCondition_eq_error_iff]
  | nop | lw | sw | movr | movi | add | addi | subi | cmp => simp [decodeOperation]

/-- A word is invalid because it has no operation, or because the operation it has reserves its condition code. -/
theorem decode_eq_error_iff (c : Config) (w : Word) (e : Invalid) :
    decode c w = .error e ↔
      (operationOf c (opcodeOf w) = none ∧ e = .unassignedOpcode (opcodeOf w)) ∨
      ((opcodeOf w = 0b01100 ∨ opcodeOf w = 0b10101) ∧ 8 < (imm8Of w).toNat ∧ e = .reservedCondition (imm8Of w)) := by
  rw [← operationOf_eq_printed_iff (o := .jmp) rfl c, ← operationOf_eq_printed_iff (o := .setc) rfl c]
  cases ho : operationOf c (opcodeOf w) with
  | none => simp [decode, ho, eq_comm]
  | some o => simp [decode_of_operation ho, decodeOperation_eq_error_iff]

theorem decode_eq_unassignedOpcode_iff (c : Config) (w : Word) (op : BitVec 5) :
    decode c w = .error (.unassignedOpcode op) ↔
      op = opcodeOf w ∧ printedOperation (opcodeOf w) = none ∧ opcodeOf w ≠ c.opSw ∧ opcodeOf w ≠ c.opSubi := by
  rw [decode_eq_error_iff, ← operationOf_eq_none_iff]
  simp [and_comm]

theorem decode_eq_reservedCondition_iff (c : Config) (w : Word) (code : BitVec 8) :
    decode c w = .error (.reservedCondition code) ↔
      code = imm8Of w ∧ 8 < code.toNat ∧ (opcodeOf w = 0b01100 ∨ opcodeOf w = 0b10101) := by
  rw [decode_eq_error_iff]
  constructor
  · rintro (⟨-, h⟩ | ⟨hop, hcode, h⟩)
    · cases h
    · cases h
      exact ⟨rfl, hcode, hop⟩
  · rintro ⟨rfl, hcode, hop⟩
    exact .inr ⟨hop, hcode, rfl⟩

theorem decode_ok_or_error (c : Config) (w : Word) : (∃ i, decode c w = .ok i) ∨ (∃ e, decode c w = .error e) := by
  cases decode c w with
  | ok i => exact .inl ⟨i, rfl⟩
  | error e => exact .inr ⟨e, rfl⟩

/-- The opcodes that no instruction has under the default parameters (30_encoding.md R38). -/
theorem unassigned_by_default_iff (op : BitVec 5) :
    (printedOperation op = none ∧ op ≠ Machine.defaultConfig.opSw ∧ op ≠ Machine.defaultConfig.opSubi) ↔
      op ∈ [0b00101, 0b00110, 0b00111, 0b01011, 0b01110, 0b01111, 0b10000, 0b10001, 0b10010, 0b10011, 0b10100,
        0b10110, 0b10111, 0b11000, 0b11001, 0b11010, 0b11011, 0b11100, 0b11101, 0b11110, 0b11111] := by
  revert op
  decide

/-! ### Ignored bits -/

/-- Words that agree in bits 15:5 agree in the fields that stand there. -/
theorem fields_eq_of_shiftRight_eq {w v : Word} (h : w >>> 5 = v >>> 5) :
    opcodeOf w = opcodeOf v ∧ rdOf w = rdOf v ∧ raOf w = raOf v := by
  have hdiv : w.toNat / 32 = v.toNat / 32 := by
    simpa [BitVec.toNat_ushiftRight, Nat.shiftRight_eq_div_pow] using congrArg BitVec.toNat h
  refine ⟨BitVec.eq_of_toNat_eq ?_, Fin.ext ?_, Fin.ext ?_⟩
  · rw [opcodeOf_toNat, opcodeOf_toNat]
    omega
  · rw [rdOf_val, rdOf_val]
    omega
  · rw [raOf_val, raOf_val]
    omega

/-- Words with one and the same printed opcode decode alike where its operation reads them alike. -/
theorem decode_eq_of_operation_eq (c : Config) {w v : Word} {o : Operation}
    (hp : printedOperation (opcodeOf w) = some o) (hop : opcodeOf w = opcodeOf v)
    (h : decodeOperation w o = decodeOperation v o) : decode c w = decode c v := by
  rw [decode_of_printed rfl hp, decode_of_printed hop.symm hp, h]

/-- MOVR, ADD and CMP are read from bits 15:5 alone. -/
theorem decode_eq_of_shiftRight_eq (c : Config) {w v : Word} (hop : opcodeOf w ∈ [0b00011, 0b01000, 0b01101])
    (h : w >>> 5 = v >>> 5) : decode c w = decode c v := by
  obtain ⟨hopcode, hrd, hra⟩ := fields_eq_of_shiftRight_eq h
  simp only [List.mem_cons, List.not_mem_nil, or_false] at hop
  rcases hop with hmovr | hadd | hcmp
  · exact decode_eq_of_operation_eq c (o := .movr) (hmovr ▸ rfl) hopcode (by simp only [decodeOperation, hrd, hra])
  · exact decode_eq_of_operation_eq c (o := .add) (hadd ▸ rfl) hopcode (by simp only [decodeOperation, hrd, hra])
  · exact decode_eq_of_operation_eq c (o := .cmp) (hcmp ▸ rfl) hopcode (by simp only [decodeOperation, hrd, hra])

theorem packM_zero_low (op : BitVec 5) (rd ra : RegIdx) : (packM op rd ra 0).toNat % 2 ^ 5 = 0 := by
  rw [packM_toNat, BitVec.ofNat_eq_ofNat, BitVec.toNat_zero]
  omega

theorem packI_zero_low (op : BitVec 5) : (packI op 0 0).toNat % 2 ^ 11 = 0 := by
  rw [packI_toNat, BitVec.ofNat_eq_ofNat, BitVec.toNat_zero]
  omega

end Sys2Proof

namespace Sys2Proof.Machine

/-! ### Refusing an invalid word -/

theorem step_of_invalid {s : State} {w : Word} {e : Invalid} (hw : s.fetch = .ok w) (he : decode s.cfg w = .error e) :
    step s = .refused (refusalOf e) := by
  simp only [step, hw, he]

/-- A refused step refuses every run that begins with it. -/
theorem run_succ_of_step_refused {s : State} {q : Refusal} (h : step s = .refused q) (n : Nat) :
    Host.Core.run core (n + 1) s = .refused q := by
  have hs : core.step s = .refused q := h
  simp only [Host.Core.run, hs]

/-! ### The statements -/

/-- Settles O6: bits 10:0 of NOP and 4:0 of MOVR, ADD and CMP stand in no field that is read, and are packed as zero. -/
theorem ignoredBitsTakeNoPart : Obligations.IgnoredBitsTakeNoPart :=
  ⟨fun c _ hop => decode_of_printed hop rfl c, fun c _ _ hop h => decode_eq_of_shiftRight_eq c hop h,
    fun _ => packI_zero_low _, fun _ _ _ => ⟨packM_zero_low .., packM_zero_low .., packM_zero_low ..⟩⟩

/-- Settles O9: a word has no operation or reserves its code, and the step of an invalid word is refused. -/
theorem invalidWordsAreRefused : Obligations.InvalidWordsAreRefused := by
  refine ⟨decode_ok_or_error, decode_eq_unassignedOpcode_iff, fun w => ?_, decode_eq_reservedCondition_iff,
    fun s w e hw he => ?_⟩
  · rw [decode_eq_unassignedOpcode_iff, unassigned_by_default_iff]
    exact and_iff_right rfl
  · have hstep := step_of_invalid hw he
    exact ⟨hstep, run_succ_of_step_refused hstep⟩

/-- Settles O5: printed opcodes are looked at first, and the others select their row where none collide. -/
theorem collidingOpcodesResolve : Obligations.CollidingOpcodesResolve :=
  ⟨fun c _ hop => decode_of_printed hop rfl c, fun c _ hop => decode_of_printed hop rfl c,
    fun _ _ hc hop => decode_of_opcode (o := .sw) hc hop, fun _ _ hc hop => decode_of_opcode (o := .subi) hc hop,
    by decide, rfl, rfl⟩

end Sys2Proof.Machine

/-! NOP (spec/40_nop.md R40): the mask 0xF800 keeps the opcode of a word, and NOP advances the pc and does nothing else. -/

namespace Sys2Proof

/-! ### Words under the opcode mask -/

/-- The mask 0xF800 keeps bits 15:11, the whole opcode field. -/
theorem opcodeOf_and_mask (w : Word) : opcodeOf (w &&& 0xF800) = opcodeOf w := by
  have hones : (0xF800 : Word).extractLsb' 11 5 = BitVec.allOnes 5 := by decide
  simp only [opcodeOf, BitVec.extractLsb'_and, hones, BitVec.and_allOnes]

/-- A word that matches, under the opcode mask, a word with a printed opcode decodes as that opcode's row does. -/
theorem decode_of_mask {w v : Word} {o : Operation} (h : w &&& 0xF800 = v) (hp : printedOperation (opcodeOf v) = some o)
    (c : Config) : decode c w = decodeOperation w o := by
  have hop : opcodeOf w = opcodeOf v := by rw [← h, opcodeOf_and_mask]
  exact decode_of_printed hop hp c

end Sys2Proof

namespace Sys2Proof.Machine

theorem exec_nop (s : State) : exec .nop s = .next s.advance := rfl

theorem encode_nop (c : Config) : encode c .nop = 0x0000 :=
  calc encode c .nop
    _ = packI 0 0 0 := rfl
    _ = 0x0000 := by decide

/-- Settles O11: the mask keeps the opcode, which is that of NOP, and the next state is the advance of the old one. -/
theorem nopOnlyAdvancesPc : Obligations.NopOnlyAdvancesPc :=
  ⟨fun c _ h => decode_of_mask h rfl c, encode_nop,
    fun s => ⟨s.advance, exec_nop s, pcAdvanced_of_pc (State.advance_pc s), State.readReg_advance s,
      State.advance_flags s, fun _ => rfl, State.advance_prog s, State.advance_endPc s, State.advance_cfg s⟩⟩

end Sys2Proof.Machine

/-! LW and SW (spec/41_load_store.md R41, R42): what their words decode to, that they complete at an accessible cell, and
that they fault at every other address. -/

namespace Sys2Proof

/-- The opcode of LW is never that of SW, whatever OP_SW is (30_encoding.md R36). -/
theorem decode_ne_sw_of_lw_opcode (c : Config) {w : Word} (hop : opcodeOf w = 0b00001) (rd ra : RegIdx)
    (simm5 : BitVec 5) : decode c w ≠ .ok (.sw rd ra simm5) := by
  have hlw : decode c w = .ok (.lw (rdOf w) (raOf w) (simm5Of w)) := decode_of_printed hop rfl c
  simp [hlw]

/-- Under parameters that collide with no printed opcode, a word with the opcode OP_SW is SW with its fields. -/
theorem decode_of_opSw {c : Config} (hc : c.Valid) {w : Word} (hop : opcodeOf w = c.opSw) :
    decode c w = .ok (.sw (rdOf w) (raOf w) (simm5Of w)) :=
  decode_of_opcode (o := .sw) hc hop

theorem defaultConfig_valid : Machine.defaultConfig.Valid := by decide

end Sys2Proof

namespace Sys2Proof.Machine

/-! ### Access to a RAM cell -/

theorem State.accessFault_of_accessible {s : State} {a : Word} (h : Accessible s a) : s.accessFault a = none :=
  (State.accessFault_eq_none_iff ..).2 h

theorem State.accessFault_of_out_of_range {s : State} {a : Word} (h : s.cfg.ramWords ≤ a.toNat) :
    s.accessFault a = some (.ramOutOfRange a) :=
  if_pos h

/-! ### LW and SW at an accessible cell -/

section
variable {s : State} {ra : RegIdx} {simm5 : BitVec 5}

theorem writesRegister_lw_of_accessible (rd : RegIdx) (h : Accessible s (effectiveAddress (s.readReg ra) simm5)) :
    WritesRegister (.lw rd ra simm5) s rd (s.ramValue (effectiveAddress (s.readReg ra) simm5)) := by
  have hload := (State.loadWord_eq_ok_iff ..).2 ⟨State.accessFault_of_accessible h, rfl⟩
  exact writesRegister_of_finishWith (by rw [exec, execLw, hload])

theorem exec_sw_of_accessible (rd : RegIdx) (h : Accessible s (effectiveAddress (s.readReg ra) simm5)) :
    exec (.sw rd ra simm5) s =
      .next { s with ram := s.ram.write (effectiveAddress (s.readReg ra) simm5) (s.readReg rd) }.advance := by
  have hstore := (State.storeWord_eq_ok_iff (v := s.readReg rd) ..).2 ⟨State.accessFault_of_accessible h, rfl⟩
  rw [exec, execSw, hstore]

end

/-! ### The statements -/

/-- Settles O12: an accessible cell is loaded with its value, written or not, and a cell that RAM does not have faults. -/
theorem lwLoadsTheAddressedCell : Obligations.LwLoadsTheAddressedCell := by
  refine ⟨fun c _ h => decode_of_mask h rfl c, fun _ _ _ => rfl, ?_⟩
  rintro s rd ra simm5 _ rfl
  refine ⟨fun hacc v hv => ?_, fun hacc => ⟨_, writesRegister_lw_of_accessible rd hacc⟩, fun hout => ?_⟩
  · exact State.ramValue_of_read hv ▸ writesRegister_lw_of_accessible rd hacc
  · exact exec_lw_of_accessFault rd (State.accessFault_of_out_of_range hout)

/-- Settles O14: the next state is the advance of the old one with the one cell written, and either access fault is SW's. -/
theorem swStoresToTheAddressedCell : Obligations.SwStoresToTheAddressedCell := by
  refine ⟨fun w h => decode_of_opSw defaultConfig_valid ?_, fun _ _ hc hop => decode_of_opSw hc hop,
    fun c _ rd ra simm5 hop => decode_ne_sw_of_lw_opcode c hop rd ra simm5, fun _ _ _ => rfl, ?_⟩
  · rw [← opcodeOf_and_mask, h]
    decide
  rintro s rd ra simm5 _ rfl
  refine ⟨fun hacc => ?_, fun hout => ?_, fun hin hm htext => ?_⟩
  · exact ⟨_, exec_sw_of_accessible rd hacc, Memory.read_write_self .., fun _ ha => Memory.read_write_ne _ _ ha,
      fun _ => rfl, pcAdvanced_of_pc rfl, rfl, rfl, rfl, rfl⟩
  · exact exec_sw_of_accessFault rd (State.accessFault_of_out_of_range hout)
  · exact exec_sw_of_accessFault rd (State.accessFault_of_text hm hin htext)

end Sys2Proof.Machine

/-! MOVR and MOVI (spec/42_move.md R43, R44): each writes its destination register and advances the pc, whatever the state. -/

namespace Sys2Proof.Machine

/-- The zero-extended immediate is the number in Imm8 as a 16-bit word (30_encoding.md R32). -/
theorem zext16_eq_ofNat_toNat (imm8 : BitVec 8) : zext16 imm8 = BitVec.ofNat 16 imm8.toNat :=
  (BitVec.ofNat_toNat 16 imm8).symm

theorem exec_movr (rd ra : RegIdx) (s : State) : exec (.movr rd ra) s = s.finishWith rd (s.readReg ra) := rfl

theorem exec_movi (rd : RegIdx) (imm8 : BitVec 8) (s : State) : exec (.movi rd imm8) s = s.finishWith rd (zext16 imm8) :=
  rfl

/-- Settles O15: MOVR finishes with the value that its source held before the write, so Rd may be Ra. -/
theorem movrCopiesARegister : Obligations.MovrCopiesARegister :=
  ⟨fun c _ h => decode_of_mask h rfl c, fun _ _ => rfl, fun s rd ra => writesRegister_of_finishWith (exec_movr rd ra s)⟩

/-- Settles O16: MOVI finishes with the zero-extended immediate, which is the immediate's number as a word. -/
theorem moviZeroExtends : Obligations.MoviZeroExtends := by
  refine ⟨fun c _ h => decode_of_mask h rfl c, fun _ _ => rfl, fun s rd imm8 => ?_⟩
  rw [← zext16_eq_ofNat_toNat]
  exact writesRegister_of_finishWith (exec_movi rd imm8 s)

end Sys2Proof.Machine

/-! ADD, ADDI and SUBI (spec/43_arith.md R45 to R48): each writes its register with a sum or a difference of 16-bit words,
which wraps alike in the unsigned and the signed reading, and no flag; CMP's flags are of the same difference. -/

namespace Sys2Proof

/-- Under parameters that collide with no printed opcode, a word with the opcode OP_SUBI is SUBI with its fields. -/
theorem decode_of_opSubi {c : Config} (hc : c.Valid) {w : Word} (hop : opcodeOf w = c.opSubi) :
    decode c w = .ok (.subi (rdOf w) (imm8Of w)) :=
  decode_of_opcode (o := .subi) hc hop

end Sys2Proof

namespace Sys2Proof.Machine

/-! ### Sums and differences of words, as numbers -/

theorem zext16_toNat (imm8 : BitVec 8) : (zext16 imm8).toNat = imm8.toNat :=
  BitVec.toNat_setWidth_of_le (by decide)

/-- The zero-extended immediate is never negative, so its signed reading is the number in Imm8 too. -/
theorem zext16_toInt (imm8 : BitVec 8) : (zext16 imm8).toInt = imm8.toNat := by
  have hlt : 2 * (zext16 imm8).toNat < 2 ^ 16 := by
    rw [zext16_toNat]
    omega
  rw [BitVec.toInt_eq_toNat_of_lt hlt, zext16_toNat]

theorem add_eq_ofNat (a b : Word) : a + b = BitVec.ofNat 16 (a.toNat + b.toNat) := by
  rw [BitVec.ofNat_add, BitVec.ofNat_toNat, BitVec.ofNat_toNat, BitVec.setWidth_eq, BitVec.setWidth_eq]

/-- The unsigned reading of a difference, where natural-number subtraction would stop at zero. -/
theorem sub_toNat (a b : Word) : ((a - b).toNat : Int) = (a.toNat - b.toNat) % 65536 := by
  rw [BitVec.toNat_sub]
  omega

theorem sub_eq_ofInt (a b : Word) : a - b = BitVec.ofInt 16 (a.toNat - b.toNat) := by
  have hsub := sub_toNat a b
  apply BitVec.eq_of_toNat_eq
  rw [BitVec.toNat_ofInt]
  omega

/-! ### What ADD, ADDI and SUBI complete with -/

theorem writesRegister_add (rd ra : RegIdx) (s : State) :
    WritesRegister (.add rd ra) s rd (s.readReg rd + s.readReg ra) :=
  writesRegister_of_finishWith rfl

theorem writesRegister_addi (rd : RegIdx) (imm8 : BitVec 8) (s : State) :
    WritesRegister (.addi rd imm8) s rd (s.readReg rd + zext16 imm8) :=
  writesRegister_of_finishWith rfl

theorem writesRegister_subi (rd : RegIdx) (imm8 : BitVec 8) (s : State) :
    WritesRegister (.subi rd imm8) s rd (s.readReg rd - zext16 imm8) :=
  writesRegister_of_finishWith rfl

/-- What the two readings of a result speak of: the written register and the flags. -/
theorem WritesRegister.result {i : Instr} {s : State} {rd : RegIdx} {v : Word} (h : WritesRegister i s rd v) :
    ∃ t, exec i s = .next t ∧ t.readReg rd = v ∧ t.flags = s.flags := by
  obtain ⟨t, hexec, hrd, -, -, hflags, -⟩ := h
  exact ⟨t, hexec, hrd, hflags⟩

/-! ### CMP's difference under the spec's flag function (44_compare_setc.md R50) -/

theorem exec_cmp_of_no_override {s : State} (h : s.cfg.cmpOverrides = []) (rd ra : RegIdx) :
    exec (.cmp rd ra) s = .next (s.setFlags (cmpFlags (s.readReg rd) (s.readReg ra))).advance := by
  rw [exec, execCmp, configuredFlags_of_nil h]

theorem cmpFlags_ZF_iff (a b : Word) : (cmpFlags a b).ZF = true ↔ (a.toNat - b.toNat : Int) % 65536 = 0 := by
  rw [← sub_toNat, Int.natCast_eq_zero, cmpFlags, beq_iff_eq, BitVec.toNat_eq]
  rfl

theorem cmpFlags_SF_iff (a b : Word) : (cmpFlags a b).SF = true ↔ Int.bmod (a.toInt - b.toInt) 65536 < 0 := by
  rw [cmpFlags, BitVec.msb_eq_toInt, decide_eq_true_iff, BitVec.toInt_sub]

/-! ### The statements -/

/-- Settles O20: the wrapped readings of a sum and a difference of words, with the immediate one number in both. -/
theorem arithmeticWrapsInBothReadings : Obligations.ArithmeticWrapsInBothReadings := by
  refine ⟨fun s rd ra => ?_, fun s rd imm8 => ?_, fun s rd imm8 => ?_, fun s rd ra hnil => ?_⟩
  · obtain ⟨t, hexec, hrd, hflags⟩ := (writesRegister_add rd ra s).result
    exact ⟨t, hexec, hrd ▸ BitVec.toNat_add .., hrd ▸ BitVec.toInt_add .., hflags⟩
  · obtain ⟨t, hexec, hrd, hflags⟩ := (writesRegister_addi rd imm8 s).result
    refine ⟨t, hexec, ?_, ?_, hflags⟩
    · rw [hrd, BitVec.toNat_add, zext16_toNat]
    · rw [hrd, BitVec.toInt_add, zext16_toInt]
  · obtain ⟨t, hexec, hrd, hflags⟩ := (writesRegister_subi rd imm8 s).result
    refine ⟨t, hexec, ?_, ?_, hflags⟩
    · rw [hrd, sub_toNat, zext16_toNat]
    · rw [hrd, BitVec.toInt_sub, zext16_toInt]
  · exact ⟨_, exec_cmp_of_no_override hnil rd ra, cmpFlags_ZF_iff .., cmpFlags_SF_iff ..⟩

/-- Settles O17: ADD finishes with the sum of the two old values, so Rd may be Ra. -/
theorem addWritesTheSum : Obligations.AddWritesTheSum := by
  refine ⟨fun c _ h => decode_of_mask h rfl c, fun _ _ => rfl, fun s rd ra => ?_⟩
  rw [← add_eq_ofNat]
  exact writesRegister_add rd ra s

/-- Settles O18: ADDI finishes with the sum of the old value and the immediate's number. -/
theorem addiWritesTheSum : Obligations.AddiWritesTheSum := by
  refine ⟨fun c _ h => decode_of_mask h rfl c, fun _ _ => rfl, fun s rd imm8 => ?_⟩
  rw [← zext16_toNat, ← add_eq_ofNat]
  exact writesRegister_addi rd imm8 s

/-- Settles O19: OP_SUBI selects SUBI, which finishes with the old value less the immediate's number. -/
theorem subiWritesTheDifference : Obligations.SubiWritesTheDifference := by
  refine ⟨fun w h => decode_of_opSubi defaultConfig_valid ?_, fun _ _ hc hop => decode_of_opSubi hc hop,
    fun _ _ => rfl, fun s rd imm8 => ?_⟩
  · rw [← opcodeOf_and_mask, h]
    decide
  · rw [← zext16_toNat, ← sub_eq_ofInt]
    exact writesRegister_subi rd imm8 s

end Sys2Proof.Machine

/-! CMP and SETC (spec/44_compare_setc.md R49 to R51): CMP's flags are the zero test, the sign and the signed overflow of one
difference, and CMP writes nothing else; SETC writes its condition, which of two complementary codes exactly one meets. -/

namespace Sys2Proof.Machine

/-! ### The three flags of the difference (44_compare_setc.md R50) -/

theorem cmpFlags_ZF_iff_sub_eq_zero (a b : Word) : (cmpFlags a b).ZF = true ↔ a - b = 0x0000 :=
  beq_iff_eq

theorem cmpFlags_ZF_iff_eq (a b : Word) : (cmpFlags a b).ZF = true ↔ a = b :=
  (cmpFlags_ZF_iff_sub_eq_zero a b).trans sub_eq_zero

theorem cmpFlags_SF_eq_bit15 (a b : Word) : (cmpFlags a b).SF = (a - b).getLsbD 15 :=
  BitVec.msb_eq_getLsbD_last (a - b)

theorem cmpFlags_OF_iff_bit15 (a b : Word) :
    (cmpFlags a b).OF = true ↔ a.getLsbD 15 ≠ b.getLsbD 15 ∧ (a - b).getLsbD 15 ≠ a.getLsbD 15 := by
  simp [cmpFlags, BitVec.msb_eq_getLsbD_last]

/-- The rule's test of three sign bits is signed overflow of the subtraction. -/
theorem cmpFlags_OF_eq_ssubOverflow (a b : Word) : (cmpFlags a b).OF = a.ssubOverflow b := by
  rw [BitVec.ssubOverflow_eq, cmpFlags]
  cases a.msb <;> cases b.msb <;> simp

theorem cmpFlags_OF_iff_out_of_range (a b : Word) :
    (cmpFlags a b).OF = true ↔ a.toInt - b.toInt < -32768 ∨ 32767 < a.toInt - b.toInt := by
  simp only [cmpFlags_OF_eq_ssubOverflow, BitVec.ssubOverflow, Bool.or_eq_true, decide_eq_true_iff]
  omega

/-- Without overflow the sign of the difference is the order; with overflow the signs of the operands are the order, and
the sign of the difference is the wrong one. -/
theorem cmpFlags_SF_ne_OF_iff (a b : Word) : (cmpFlags a b).SF ≠ (cmpFlags a b).OF ↔ a.toInt < b.toInt := by
  have hSF : (cmpFlags a b).SF = (a - b).msb := rfl
  cases hOF : (cmpFlags a b).OF with
  | false =>
    have hsub : (a - b).toInt = a.toInt - b.toInt := by
      apply BitVec.toInt_sub_of_not_ssubOverflow
      simp [← cmpFlags_OF_eq_ssubOverflow, hOF]
    rw [hSF, BitVec.msb_eq_toInt, hsub]
    simp
  | true =>
    have hsigns : a.msb ≠ b.msb ∧ (a - b).msb ≠ a.msb := by simpa [cmpFlags] using hOF
    obtain ⟨hab, hra⟩ := hsigns
    have hrb : (a - b).msb = b.msb := by
      rw [Bool.eq_not_of_ne hra, Bool.eq_not_of_ne hab, Bool.not_not]
    rw [hSF, hrb, BitVec.msb_eq_toInt]
    rw [BitVec.msb_eq_toInt, BitVec.msb_eq_toInt, ne_eq, decide_eq_decide] at hab
    rw [ne_eq, decide_eq_true_iff]
    omega

theorem cmpFlags_self (a : Word) : cmpFlags a a = { ZF := true, SF := false, OF := false } := by
  simp [cmpFlags]

/-! ### CMP and SETC -/

theorem exec_cmp (rd ra : RegIdx) (s : State) :
    exec (.cmp rd ra) s = .next (s.setFlags (configuredFlags s.cfg (s.readReg rd) (s.readReg ra))).advance := rfl

/-- Codes 1 and 2, 4 and 5, 3 and 6, 7 and 8 select a condition and its negation (45_jump.md R54). -/
theorem flagCond_complement (f : Flags) {p : BitVec 8 × BitVec 8} (hp : p ∈ [(1, 2), (4, 5), (3, 6), (7, 8)]) :
    ∃ b, flagCond f p.1 = some b ∧ flagCond f p.2 = some !b := by
  simp only [List.mem_cons, List.not_mem_nil, or_false] at hp
  rcases hp with rfl | rfl | rfl | rfl
  · exact ⟨f.ZF, rfl, rfl⟩
  · exact ⟨f.SF == f.OF, rfl, rfl⟩
  · refine ⟨!f.ZF && f.SF == f.OF, rfl, ?_⟩
    rw [Bool.not_and, Bool.not_not]
    rfl
  · exact ⟨f.SF, rfl, rfl⟩

theorem boolWord_eq_one_sub_not (b : Bool) : boolWord b = 1 - boolWord !b := by
  cases b <;> decide

theorem writesRegister_setc {s : State} {code : BitVec 8} {b : Bool} (rd : RegIdx)
    (h : flagCond s.flags code = some b) : WritesRegister (.setc rd code) s rd (boolWord b) :=
  writesRegister_of_finishWith (by rw [exec, execSetc, h])

theorem exec_setc_of_reserved {code : BitVec 8} (h : 8 < code.toNat) (rd : RegIdx) (s : State) :
    exec (.setc rd code) s = .refused (.reservedCondition code) := by
  rw [exec, execSetc, flagCond_of_gt h]

/-- Two codes that select a condition and its negation write 1 and 0 or 0 and 1. -/
theorem exec_setc_complement {s : State} {code code' : BitVec 8} {b : Bool} (rd : RegIdx)
    (h : flagCond s.flags code = some b) (h' : flagCond s.flags code' = some !b) :
    ∃ t u, exec (.setc rd code) s = .next t ∧ exec (.setc rd code') s = .next u ∧ t.readReg rd = 1 - u.readReg rd := by
  obtain ⟨t, ht, htrd, -⟩ := (writesRegister_setc rd h).result
  obtain ⟨u, hu, hurd, -⟩ := (writesRegister_setc rd h').result
  exact ⟨t, u, ht, hu, by rw [htrd, hurd, boolWord_eq_one_sub_not]⟩

/-! ### The statements -/

/-- Settles O22: the rule's difference is the word `a - b`, and OF in both of the rule's forms is its signed overflow. -/
theorem cmpFlagsAreOfTheDifference : Obligations.CmpFlagsAreOfTheDifference := by
  refine ⟨rfl, fun _ a b h => configuredFlags_of_nil h a b,
    fun c h => ⟨fun a b => ?_, fun a b => ?_, fun a b => ?_⟩, ?_⟩
  · rw [configuredFlags_of_nil h]
    exact cmpFlags_ZF_iff_eq a b
  · rw [configuredFlags_of_nil h]
    exact cmpFlags_SF_ne_OF_iff a b
  · rw [configuredFlags_of_nil h, ← sub_eq_ofInt]
    exact cmpFlags_SF_eq_bit15 a b
  · rintro a b r hr
    obtain rfl : r = a - b := hr.trans (sub_eq_ofInt a b).symm
    exact ⟨cmpFlags_ZF_iff_sub_eq_zero a b, cmpFlags_SF_eq_bit15 a b, cmpFlags_OF_iff_bit15 a b,
      cmpFlags_OF_iff_out_of_range a b⟩

/-- Settles O25: a code up to 8 selects a condition, which SETC finishes with as a word; a code above 8 selects none. -/
theorem setcWritesOneOrZero : Obligations.SetcWritesOneOrZero := by
  refine ⟨fun c w h hcode => ?_, fun c w h hcode => ?_, fun _ _ => rfl, fun s rd code hcode => ?_,
    fun s rd => writesRegister_setc rd (flagCond_zero s.flags), fun s rd code hcode => exec_setc_of_reserved hcode rd s,
    fun s rd p hp => ?_⟩
  · exact (decode_of_mask h rfl c).trans ((withCondition_eq_ok_iff ..).2 ⟨hcode, rfl⟩)
  · exact (decode_of_mask h rfl c).trans ((withCondition_eq_error_iff ..).2 ⟨hcode, rfl⟩)
  · obtain ⟨b, hb⟩ := flagCond_of_le (f := s.flags) hcode
    exact ⟨b, hb, writesRegister_setc rd hb⟩
  · obtain ⟨b, hb, hb'⟩ := flagCond_complement s.flags hp
    exact exec_setc_complement rd hb hb'

/-- Settles O21: the next state is the old one with the configured flags and the pc advanced, and no register written. -/
theorem cmpWritesOnlyTheFlags : Obligations.CmpWritesOnlyTheFlags := by
  refine ⟨fun c _ h => decode_of_mask h rfl c, fun _ _ => rfl, fun s rd ra => ?_, fun s rd hnil => ?_⟩
  · exact ⟨_, exec_cmp rd ra s, rfl, fun hnil => configuredFlags_of_nil hnil .., fun _ => rfl, pcAdvanced_of_pc rfl,
      fun _ => rfl, rfl, rfl, rfl⟩
  · exact ⟨_, exec_cmp_of_no_override hnil rd rd, cmpFlags_self _⟩

end Sys2Proof.Machine

/-! JMP and its spellings (spec/45_jump.md R53 to R56): every name of JMP is one word and one operation, which goes to the
register or advances as its condition says; a code above 8 selects no condition and is refused. -/

namespace Sys2Proof.Machine

/-! ### The condition of a code (45_jump.md R54) -/

theorem flagCond_eq_none_iff (f : Flags) (code : BitVec 8) : flagCond f code = none ↔ 8 < code.toNat := by
  refine ⟨fun hnone => ?_, flagCond_of_gt⟩
  by_contra hcode
  obtain ⟨b, hb⟩ := flagCond_of_le (f := f) (Nat.le_of_not_lt hcode)
  rw [hnone] at hb
  cases hb

/-! ### Jumps under all names -/

/-- The spelling that the decoder gives to JMP keeps its register and its code. -/
theorem jumpOperands_jumpSpelling (rd : RegIdx) {code : BitVec 8} (h : code.toNat ≤ 8) :
    jumpOperands (jumpSpelling rd code) = some (rd, code) := by
  rcases jumpSpelling_of_le (rd := rd) h with
    ⟨rfl, e⟩ | ⟨rfl, e⟩ | ⟨rfl, e⟩ | ⟨rfl, e⟩ | ⟨rfl, e⟩ | ⟨rfl, e⟩ | ⟨rfl, e⟩ | ⟨rfl, e⟩ | ⟨rfl, e⟩
  all_goals rw [e]; rfl

theorem exec_eq_exec_jmp {i : Instr} {rd : RegIdx} {code : BitVec 8} (h : jumpOperands i = some (rd, code)) (s : State) :
    exec i s = exec (.jmp rd code) s := by
  obtain ⟨-, -, -, hexec⟩ := jump_of_jumpOperands h
  exact hexec s

theorem exec_jumpSpelling (rd : RegIdx) {code : BitVec 8} (h : code.toNat ≤ 8) (s : State) :
    exec (jumpSpelling rd code) s = exec (.jmp rd code) s :=
  exec_eq_exec_jmp (jumpOperands_jumpSpelling rd h) s

/-- A jump whose condition is defined completes, and is taken exactly when the condition holds. -/
theorem jumpsWhen_of_flagCond {i : Instr} {s : State} {rd : RegIdx} {code : BitVec 8} {b : Bool} {taken : Prop}
    (hi : jumpOperands i = some (rd, code)) (hb : flagCond s.flags code = some b) (ht : taken ↔ b = true) :
    JumpsWhen i s rd taken := by
  obtain ⟨-, -, -, hexec⟩ := jump_of_jumpOperands hi
  cases b with
  | true =>
    have hnext : exec i s = .next (s.setPc (s.readReg rd)) := by rw [hexec, State.jumpOn, hb]
    exact ⟨_, hnext, fun _ => rfl, fun hn => absurd (ht.2 rfl) hn, fun _ => rfl, rfl, fun _ => rfl, rfl, rfl, rfl⟩
  | false =>
    have hnext : exec i s = .next s.advance := by rw [hexec, State.jumpOn, hb]
    exact ⟨_, hnext, fun hy => absurd (ht.1 hy) Bool.false_ne_true, fun _ => pcAdvanced_of_pc rfl, fun _ => rfl, rfl,
      fun _ => rfl, rfl, rfl, rfl⟩

/-! ### JMP itself -/

theorem exec_jmp_zero (rd : RegIdx) (s : State) : exec (.jmp rd 0) s = .next (s.setPc (s.readReg rd)) := rfl

theorem exec_jmp_of_reserved {code : BitVec 8} (h : 8 < code.toNat) (rd : RegIdx) (s : State) :
    exec (.jmp rd code) s = .refused (.reservedCondition code) := by
  rw [exec, execJmp, State.jumpOn, flagCond_of_gt h]

/-- A jump to an address where no instruction stands leads to a state from which there is no step. -/
theorem step_setPc_of_no_instruction {s : State} {a : Word} (hend : s.endPc ≠ some a) (h : s.instructionAt a = none) :
    step (s.setPc a) = .fault (.noInstruction a) :=
  step_of_no_instruction (s := s.setPc a) hend h

end Sys2Proof.Machine

namespace Sys2Proof

/-! ### The words of JMP (45_jump.md R55) -/

/-- Opcode 01100, register and code stand in disjoint bits, so packing them is a bitwise or. -/
theorem packI_jmp (rd : RegIdx) (code : BitVec 8) :
    packI 0b01100 rd code = 0x6000 ||| (BitVec.ofNat 16 rd.val <<< 8) ||| code.zeroExtend 16 := by
  have hhigh : (((0b01100 : BitVec 5) ++ BitVec.ofFin (w := 3) rd).shiftLeftZeroExtend 8 : Word) =
      0x6000 ||| (BitVec.ofNat 16 rd.val <<< 8) := by
    revert rd
    decide
  rw [packI, BitVec.append_def, hhigh, BitVec.setWidth'_eq]

/-- A jump under any name has the word of JMP with its register and code. -/
theorem encode_of_jumpOperands {i : Instr} {rd : RegIdx} {code : BitVec 8}
    (h : Machine.jumpOperands i = some (rd, code)) (c : Config) : encode c i = packI 0b01100 rd code := by
  cases i <;> cases h <;> rfl

/-- The word of JMP with a code up to 8 is read under the spelling of that code, whatever the parameters are. -/
theorem decode_packI_jmp (c : Config) (rd : RegIdx) {code : BitVec 8} (h : code.toNat ≤ 8) :
    decode c (packI 0b01100 rd code) = .ok (jumpSpelling rd code) := by
  rw [decode_of_printed (o := .jmp) (opcodeOf_packI ..) rfl, decodeOperation, rdOf_packI, imm8Of_packI]
  exact (withCondition_eq_ok_iff ..).2 ⟨h, rfl⟩

end Sys2Proof

namespace Sys2Proof.Machine

/-! ### The statements -/

/-- Settles O26: a JMP word is read under the spelling of its code, which has JMP's effect; the condition of a code up to 8
is defined, and that of code 0 holds. -/
theorem jmpGoesToTheRegister : Obligations.JmpGoesToTheRegister := by
  refine ⟨fun c w h hcode => ?_, fun c w h hcode => ?_, fun _ _ => rfl, fun s rd code hcode => ?_, fun s rd => ?_,
    fun s rd hself => ?_, fun s t rd hexec hnone hend => ?_, fun s rd code hcode => exec_jmp_of_reserved hcode rd s⟩
  · exact ⟨_, (decode_of_mask h rfl c).trans ((withCondition_eq_ok_iff ..).2 ⟨hcode, rfl⟩), exec_jumpSpelling _ hcode⟩
  · exact (decode_of_mask h rfl c).trans ((withCondition_eq_error_iff ..).2 ⟨hcode, rfl⟩)
  · obtain ⟨b, hb⟩ := flagCond_of_le (f := s.flags) hcode
    exact ⟨b, hb, jumpsWhen_of_flagCond rfl hb Iff.rfl⟩
  · exact jumpsWhen_of_flagCond rfl (flagCond_zero s.flags) (iff_of_true trivial rfl)
  · rw [exec_jmp_zero, hself]
    rfl
  · cases hexec
    exact step_setPc_of_no_instruction hend hnone

/-- Settles O27: each spelling is a jump with a code up to 8, and such a jump has the word and the effect of JMP. -/
theorem spellingsAreJmpWords : Obligations.SpellingsAreJmpWords := by
  intro c rd p hp
  obtain ⟨hj, hcode⟩ : jumpOperands p.1 = some (rd, p.2) ∧ p.2.toNat ≤ 8 := by
    simp only [List.mem_cons, List.not_mem_nil, or_false] at hp
    rcases hp with rfl | rfl | rfl | rfl | rfl | rfl | rfl | rfl | rfl
    all_goals exact ⟨rfl, by simp⟩
  have hword := encode_of_jumpOperands hj c
  have heffect := exec_eq_exec_jmp hj
  refine ⟨hword.trans (packI_jmp rd p.2), ⟨jumpSpelling rd p.2, ?_, fun s => ?_⟩, ?_, hj, heffect⟩
  · rw [hword]
    exact decode_packI_jmp c rd hcode
  · rw [exec_jumpSpelling rd hcode, heffect]
  · rw [hword]
    exact encode_of_jumpOperands rfl c

/-- Settles O10: a reserved code makes the word invalid, so the step is refused, and selects no condition, so the
instruction is. -/
theorem reservedConditionsAreRefused : Obligations.ReservedConditionsAreRefused := by
  have hdecode (c : Config) (w : Word) (hop : opcodeOf w = 0b01100 ∨ opcodeOf w = 0b10101) (hcode : 8 < (imm8Of w).toNat) :
      decode c w = .error (.reservedCondition (imm8Of w)) :=
    (decode_eq_reservedCondition_iff ..).2 ⟨rfl, hcode, hop⟩
  exact ⟨hdecode, fun s w hw hop hcode => step_of_invalid hw (hdecode s.cfg w hop hcode),
    fun s rd code hcode => ⟨exec_jmp_of_reserved hcode rd s, exec_setc_of_reserved hcode rd s⟩⟩

/-- Settles O24: each code up to 8 selects the Boolean form of its test, and only the reserved codes select none. -/
theorem conditionCodesSelectTheirTest : Obligations.ConditionCodesSelectTheirTest := by
  refine fun f => ⟨flagCond_zero f, ?_, ?_, ?_, ?_, ?_, ?_, ?_, ?_, flagCond_eq_none_iff f⟩
  all_goals exact Option.some_inj.trans (by simp)

end Sys2Proof.Machine

/-! Encoding (spec/30_encoding.md R31 to R37): the word of an instruction decodes to it, and a word that decodes is its
instruction's word but for ignored bits. The names of JMP differ in spelling only, so each fact has one case for all jumps. -/

namespace Sys2Proof

open Machine (jumpOperands)

/-! ### The names of JMP -/

theorem wellFormed_iff_of_jumpOperands {i : Instr} {rd : RegIdx} {code : BitVec 8}
    (h : jumpOperands i = some (rd, code)) : i.wellFormed = true ↔ code.toNat ≤ 8 := by
  cases i <;> cases h <;> simp [Instr.wellFormed]

theorem canonical_of_jumpOperands {i : Instr} {rd : RegIdx} {code : BitVec 8}
    (h : jumpOperands i = some (rd, code)) : i.canonical = jumpSpelling rd code := by
  cases i <;> cases h <;> rfl

theorem canonical_of_not_jump {i : Instr} (h : jumpOperands i = none) : i.canonical = i := by
  cases i with
  | jmp => cases h
  | _ => rfl

theorem significantBits_of_jumpOperands {i : Instr} {rd : RegIdx} {code : BitVec 8}
    (h : jumpOperands i = some (rd, code)) : i.significantBits = 0xFFFF := by
  cases i <;> cases h <;> rfl

/-- Among the names of JMP the decoder's is another one only for a JMP with a code above 0. -/
theorem canonical_eq_self {i : Instr} (h : ∀ rd code, i = .jmp rd code → code = 0) : i.canonical = i := by
  cases i with
  | jmp rd code => cases h rd code rfl; rfl
  | _ => rfl

/-! ### Decoding an encoded word -/

theorem opcodeOf_encode (c : Config) (i : Instr) : opcodeOf (encode c i) = i.opcode c := by
  cases i with
  | lw | sw | movr | add | cmp => exact opcodeOf_packM ..
  | _ => exact opcodeOf_packI ..

theorem decode_encode_of_not_jump {c : Config} {i : Instr} (hc : c.Valid) (hi : jumpOperands i = none)
    (hwf : i.wellFormed = true) : decode c (encode c i) = .ok i := by
  rw [decode_of_opcode hc (opcodeOf_encode c i)]
  cases i with
  | setc rd code =>
    have hcode : code.toNat ≤ 8 := by simpa [Instr.wellFormed] using hwf
    simp [Instr.operation, decodeOperation, encode, withCondition, hcode]
  | nop | lw | sw | movr | movi | add | addi | subi | cmp => simp [Instr.operation, decodeOperation, encode]
  | jmp | je | jne | jg | jge | jl | jle | js | jns => cases hi

/-- Settles O7: a jump is read back under the spelling of its code, which has its word and effect, and every other
instruction as itself. -/
theorem decodeOfEncode : Obligations.DecodeOfEncode := by
  intro c i hc hwf
  cases hj : jumpOperands i with
  | none =>
    have hcan := canonical_of_not_jump hj
    rw [hcan]
    exact ⟨decode_encode_of_not_jump hc hj hwf, rfl, fun _ => rfl, fun _ => rfl⟩
  | some operands =>
    obtain ⟨rd, code⟩ := operands
    have hcode := (wellFormed_iff_of_jumpOperands hj).1 hwf
    have hcan := canonical_of_jumpOperands hj
    have hj' : jumpOperands i.canonical = some (rd, code) := hcan ▸ Machine.jumpOperands_jumpSpelling rd hcode
    have hword := encode_of_jumpOperands hj c
    refine ⟨?_, (encode_of_jumpOperands hj' c).trans hword.symm, fun s => ?_, canonical_eq_self⟩
    · rw [hword, hcan]
      exact decode_packI_jmp c rd hcode
    · rw [Machine.exec_eq_exec_jmp hj', Machine.exec_eq_exec_jmp hj]

/-! ### Encoding a decoded instruction -/

/-- Format R keeps bits 15:5 of a word. -/
theorem packM_fields_zero_low (w : Word) : packM (opcodeOf w) (rdOf w) (raOf w) 0 = w &&& 0xFFE0 := by
  have hop : (0xFFE0 : Word).extractLsb' 11 5 = BitVec.allOnes 5 := by decide
  have hrd : (0xFFE0 : Word).extractLsb' 8 3 = BitVec.allOnes 3 := by decide
  have hra : (0xFFE0 : Word).extractLsb' 5 3 = BitVec.allOnes 3 := by decide
  have hlow : (0xFFE0 : Word).extractLsb' 0 5 = 0#5 := by decide
  rw [← packM_fields (w &&& 0xFFE0)]
  simp only [opcodeOf, rdOf, raOf, simm5Of, BitVec.extractLsb'_and, hop, hrd, hra, hlow, BitVec.and_allOnes,
    BitVec.and_zero]
  rfl

/-- The word of NOP keeps bits 15:11 of a word. -/
theorem packI_opcode_zero (w : Word) : packI (opcodeOf w) 0 0 = w &&& 0xF800 := by
  have hrd : (0xF800 : Word).extractLsb' 8 3 = 0#3 := by decide
  have himm : (0xF800 : Word).extractLsb' 0 8 = 0#8 := by decide
  rw [← packI_fields (w &&& 0xF800), opcodeOf_and_mask]
  simp only [rdOf, imm8Of, BitVec.extractLsb'_and, hrd, himm, BitVec.and_zero]
  rfl

theorem and_all_significant (w : Word) : w &&& 0xFFFF = w :=
  BitVec.and_allOnes

theorem packM_fields_and {c : Config} {w : Word} {o : Operation} (h : o.opcode c = opcodeOf w) :
    packM (o.opcode c) (rdOf w) (raOf w) (simm5Of w) = w &&& 0xFFFF := by
  rw [h, packM_fields, and_all_significant]

theorem packI_fields_and {c : Config} {w : Word} {o : Operation} (h : o.opcode c = opcodeOf w) :
    packI (o.opcode c) (rdOf w) (imm8Of w) = w &&& 0xFFFF := by
  rw [h, packI_fields, and_all_significant]

theorem packM_zero_low_and {c : Config} {w : Word} {o : Operation} (h : o.opcode c = opcodeOf w) :
    packM (o.opcode c) (rdOf w) (raOf w) 0 = w &&& 0xFFE0 := by
  rw [h, packM_fields_zero_low]

/-- Settles O8: the operation's opcode is the word's, and each format packs the fields that were read. -/
theorem encodeOfDecode : Obligations.EncodeOfDecode := by
  intro c w i h
  obtain ⟨o, -, hop, hi⟩ := decode_eq_ok h
  cases o with
  | nop =>
    cases hi
    refine ⟨?_, rfl, rfl⟩
    rw [Instr.significantBits, ← packI_opcode_zero, ← hop]
    rfl
  | lw | sw => cases hi; exact ⟨packM_fields_and hop, rfl, rfl⟩
  | movr | add | cmp => cases hi; exact ⟨packM_zero_low_and hop, rfl, rfl⟩
  | movi | addi | subi => cases hi; exact ⟨packI_fields_and hop, rfl, rfl⟩
  | setc =>
    obtain ⟨hcode, rfl⟩ := (withCondition_eq_ok_iff ..).1 hi
    exact ⟨packI_fields_and hop, decide_eq_true hcode, rfl⟩
  | jmp =>
    obtain ⟨hcode, rfl⟩ := (withCondition_eq_ok_iff ..).1 hi
    have hj := Machine.jumpOperands_jumpSpelling (rdOf w) hcode
    refine ⟨?_, (wellFormed_iff_of_jumpOperands hj).2 hcode, canonical_of_jumpOperands hj⟩
    have hpack := packI_fields_and hop
    rw [encode_of_jumpOperands hj, significantBits_of_jumpOperands hj]
    exact hpack

/-! ### The ranges of the opcode map (30_encoding.md R34) -/

/-- The opcode is the word's number over 2048, so the words in the range of a row decode as that row does. -/
theorem decode_of_range {w : Word} (o : Operation) (n : Nat) (ho : o.opcode Machine.defaultConfig = BitVec.ofNat 5 n)
    (h : w.toNat / 2048 = n) : decode Machine.defaultConfig w = decodeOperation w o := by
  refine decode_of_opcode defaultConfig_valid (BitVec.eq_of_toNat_eq ?_)
  rw [ho, opcodeOf_toNat, BitVec.toNat_ofNat, h]

theorem withCondition_imm8Of (w : Word) (i : Instr) :
    withCondition (imm8Of w) i =
      if w.toNat % 256 ≤ 8 then .ok i else .error (.reservedCondition (imm8Of w)) := by
  rw [withCondition, imm8Of_toNat]

/-- The opcodes between the ranges of the opcode map have no instruction. -/
theorem unassigned_of_toNat (op : BitVec 5)
    (h : (5 ≤ op.toNat ∧ op.toNat < 8) ∨ op.toNat = 11 ∨ (14 ≤ op.toNat ∧ op.toNat < 21) ∨ 22 ≤ op.toNat) :
    printedOperation op = none ∧ op ≠ Machine.defaultConfig.opSw ∧ op ≠ Machine.defaultConfig.opSubi := by
  revert op
  decide

/-- Settles O4: a range of words is an opcode, or a gap between opcodes. -/
theorem wordRangesDecode : Obligations.WordRangesDecode := by
  intro w
  refine ⟨fun h => decode_of_range .nop 0 rfl (by omega), fun h => decode_of_range .lw 1 rfl (by omega),
    fun h => decode_of_range .sw 2 rfl (by omega), fun h => decode_of_range .movr 3 rfl (by omega),
    fun h => decode_of_range .movi 4 rfl (by omega), fun h => decode_of_range .add 8 rfl (by omega),
    fun h => decode_of_range .addi 9 rfl (by omega), fun h => decode_of_range .subi 10 rfl (by omega),
    fun h => ?_, fun h => decode_of_range .cmp 13 rfl (by omega), fun h => ?_, fun h => ?_⟩
  · exact (decode_of_range .jmp 12 rfl (by omega)).trans (withCondition_imm8Of ..)
  · exact (decode_of_range .setc 21 rfl (by omega)).trans (withCondition_imm8Of ..)
  · refine (decode_eq_unassignedOpcode_iff ..).2 ⟨rfl, unassigned_of_toNat _ ?_⟩
    rw [opcodeOf_toNat]
    omega

/-! ### Fields, immediates and worked words -/

/-- Settles O1: the fields of a word as numbers, the opcode without its remainder since no bit stands above it. -/
theorem fieldsStandAtTheirBits : Obligations.FieldsStandAtTheirBits := by
  refine fun w => ⟨?_, rdOf_val w, raOf_val w, simm5Of_toNat w, imm8Of_toNat w⟩
  rw [opcodeOf_toNat]
  omega

/-- Settles O2: sign extension keeps the signed reading and zero extension the unsigned one. -/
theorem immediatesAreExtended : Obligations.ImmediatesAreExtended := by
  refine ⟨fun simm5 => ?_, fun imm8 => ?_⟩
  · rw [Machine.sext16_toInt]
    exact ⟨rfl, Machine.simm5_toInt_bounds simm5⟩
  · rw [Machine.zext16_toNat]
    exact ⟨rfl, Nat.le_of_lt_succ imm8.isLt⟩

/-- Settles O3: each is one closed word, which the decoder evaluates. -/
theorem sampleWordsDecode : Obligations.SampleWordsDecode :=
  ⟨rfl, rfl, rfl, rfl, rfl, rfl, rfl, rfl, rfl, rfl, rfl, rfl, rfl, rfl⟩

end Sys2Proof

/-! Invariants (spec/10_state.md R18, 20_memory.md R20, R29): what every step keeps, each read off the effects that a step can
have; and the canonical form of a memory, which makes it the data of its reads. -/

namespace Sys2Proof.Machine

/-! ### The invariant of the machine -/

/-- A store to an accessible cell keeps the invariant: the cell is within RAM and apart from program text. -/
theorem State.Inv.store {s : State} (h : s.Inv) {a : Word} (ha : Accessible s a) (v pc : Word) :
    { s with ram := s.ram.write a v, pc := pc }.Inv := by
  obtain ⟨hrange, htext⟩ := ha
  refine ⟨Memory.wf_write h.ram_wf a v, h.prog_wf, fun b hb => ?_, fun hm b hb => ?_⟩
  all_goals rw [Memory.read_write] at hb; split at hb
  · rename_i hba
    exact hba ▸ hrange
  · exact h.ram_in_range b hb
  · rename_i hba
    exact hba ▸ htext hm
  · exact h.text_apart hm b hb

theorem Effect.inv {i : Instr} {s t : State} (h : Effect i s t) (hs : s.Inv) : t.Inv := by
  cases h with
  | store rd ra simm5 _ ha => exact hs.store ((State.accessFault_eq_none_iff ..).1 ha) _ _
  | advance | register | compare | jump => exact ⟨hs.ram_wf, hs.prog_wf, hs.ram_in_range, hs.text_apart⟩

/-- Settles O37: SW alone changes what the invariant speaks of, and it writes an accessible cell. -/
theorem stepKeepsTheInvariant : Obligations.StepKeepsTheInvariant := by
  intro s t hs h
  obtain ⟨_, _, -, -, hexec⟩ := step_eq_next h
  exact (exec_effect hexec).inv hs

theorem resetWith_instructionAt (c : Config) (a : Word) : (State.resetWith c).instructionAt a = none := by
  cases hm : c.memOrg with
  | separate => exact State.instructionAt_of_separate hm a
  | unified =>
    rw [State.instructionAt, State.resetWith, hm]
    exact ite_self _

theorem resetWith_inv (c : Config) : (State.resetWith c).Inv := by
  obtain ⟨hram, hprog⟩ := Memory.wf_reset c
  exact ⟨hram, hprog, fun _ ha => absurd ha Bool.false_ne_true, fun _ _ _ => rfl⟩

/-- Settles O38: nothing is listed at reset, so the invariant is about no cell and the first fetch finds no instruction. -/
theorem resetMeetsTheInvariant : Obligations.ResetMeetsTheInvariant :=
  ⟨fun c => ⟨resetWith_inv c, rfl, rfl, fun _ => rfl, fun _ => rfl,
    step_of_no_instruction (s := State.resetWith c) (Option.some_ne_none _).symm (resetWith_instructionAt c _)⟩, rfl, rfl⟩

/-! ### The flags -/

theorem cmpFlags_coherent (a b : Word) : (cmpFlags a b).Coherent := by
  intro hZF
  obtain rfl := (cmpFlags_ZF_iff_eq a b).1 hZF
  rw [cmpFlags_self]
  exact ⟨rfl, rfl⟩

/-- Settles O39: the flags after a step are those before it or those of the flag function. -/
theorem stepKeepsFlagsCoherent : Obligations.StepKeepsFlagsCoherent := by
  refine ⟨fun c hnil a b => ?_, fun s t hconf hs h => ?_⟩
  · rw [configuredFlags_of_nil hnil]
    exact cmpFlags_coherent a b
  · obtain ⟨_, _, -, -, hexec⟩ := step_eq_next h
    cases exec_effect hexec with
    | compare => exact hconf _ _
    | advance | register | store | jump => exact hs

section
variable {f : Flags} {a b : Word}

/-! Where ZF is equality and SF differs from OF on the signed order, the other orders follow. -/

theorem SF_eq_OF_iff_le (h : f.SF ≠ f.OF ↔ a.toInt < b.toInt) : f.SF = f.OF ↔ b.toInt ≤ a.toInt := by
  rw [← not_lt, ← h, ne_eq, not_not]

theorem not_ZF_and_SF_eq_OF_iff_lt (hZF : f.ZF = true ↔ a = b) (h : f.SF ≠ f.OF ↔ a.toInt < b.toInt) :
    f.ZF = false ∧ f.SF = f.OF ↔ b.toInt < a.toInt := by
  rw [SF_eq_OF_iff_le h, ← Bool.not_eq_true, hZF, ← BitVec.toInt_inj]
  omega

theorem ZF_or_SF_ne_OF_iff_le (hZF : f.ZF = true ↔ a = b) (h : f.SF ≠ f.OF ↔ a.toInt < b.toInt) :
    f.ZF = true ∨ f.SF ≠ f.OF ↔ a.toInt ≤ b.toInt := by
  rw [h, hZF, ← BitVec.toInt_inj]
  omega

end

/-- Settles O23: ZF is equality and SF differs from OF on the signed order. -/
theorem cmpFlagsOrderTheOperands : Obligations.CmpFlagsOrderTheOperands := by
  intro a b
  have hZF := cmpFlags_ZF_iff_eq a b
  have hlt := cmpFlags_SF_ne_OF_iff a b
  exact ⟨hZF, hlt, SF_eq_OF_iff_le hlt, not_ZF_and_SF_eq_OF_iff_lt hZF hlt, ZF_or_SF_ne_OF_iff_le hZF hlt,
    cmpFlags_coherent a b⟩

/-- Settles O28: each spelling tests the flag condition of its code, in the Boolean form. -/
theorem conditionalJumpsTestTheFlags : Obligations.ConditionalJumpsTestTheFlags := by
  refine fun s rd => ⟨?_, ?_, ?_, ?_, ?_, ?_, ?_, ?_⟩
  all_goals exact jumpsWhen_of_flagCond rfl rfl (by simp)

/-! ### RAM and what is fixed at launch -/

/-- Settles O33: SW is the one effect that writes RAM, and it writes one cell. -/
theorem ramIsWrittenBySwAlone : Obligations.RamIsWrittenBySwAlone := by
  intro i s t a h hne
  by_contra hno
  exact hne ((exec_effect h).ram_read_eq fun rd ra simm5 hi hea => hno ⟨rd, ra, simm5, hi, hea⟩)

/-- Settles O36: no step changes what is fixed at launch, by induction on the number of steps. -/
theorem launchIsFixed : Obligations.LaunchIsFixed := by
  intro n
  induction n with
  | zero =>
    intro s t h
    cases h
    exact ⟨rfl, rfl, rfl⟩
  | succ n ih =>
    intro s t h
    obtain ⟨u, hstep, hrun⟩ := run_succ_eq_next h
    exact (step_sameLaunch hstep).trans (ih u t hrun)

/-! ### Canonical memories -/

/-- In a canonical memory, what an address reads as is what is listed for it. -/
theorem Memory.read_eq_some_iff {m : Memory} (h : m.wf) (a v : Word) : m.read a = some v ↔ (a.toNat, v) ∈ m := by
  obtain ⟨h, -⟩ := h
  induction m with
  | nil => simp
  | cons p m ih =>
    obtain ⟨k, u⟩ := p
    obtain ⟨hhead, htail⟩ := List.pairwise_cons.1 h
    rw [Memory.read_cons, List.mem_cons, ← ih htail]
    by_cases hk : k = a.toNat
    · have hlater : (a.toNat, v) ∉ m := fun hmem => (hhead _ hmem).ne hk
      simp [hk, ih htail, hlater, eq_comm]
    · simp [hk, Ne.symm hk]

/-- A canonical memory lists exactly what is read. -/
theorem Memory.mem_iff_read {m : Memory} (h : m.wf) (p : Nat × Word) :
    p ∈ m ↔ p.1 < 65536 ∧ m.read (BitVec.ofNat 16 p.1) = some p.2 := by
  rw [Memory.read_eq_some_iff h]
  constructor
  · intro hp
    have hlt := h.2 p hp
    rw [BitVec.toNat_ofNat, Nat.mod_eq_of_lt hlt]
    exact ⟨hlt, hp⟩
  · rintro ⟨hlt, hp⟩
    rwa [BitVec.toNat_ofNat, Nat.mod_eq_of_lt hlt] at hp

theorem Memory.wf.nodup {m : Memory} (h : m.wf) : m.Nodup :=
  h.1.imp fun hlt => fun e => hlt.ne (congrArg Prod.fst e)

/-- Settles O47: the two list the same cells, and a strictly rising order lists them in one way. -/
theorem canonicalMemoriesAreExtensional : Obligations.CanonicalMemoriesAreExtensional := by
  intro m n hm hn hread
  have hperm : m.Perm n := (List.perm_ext_iff_of_nodup hm.nodup hn.nodup).2 fun p => by
    rw [Memory.mem_iff_read hm, Memory.mem_iff_read hn, hread]
  exact hperm.eq_of_pairwise (fun _ _ _ _ hlt hgt => absurd hlt hgt.asymm) hm.1 hn.1

/-! ### Every flag function (00_scope.md R4) -/

/-- Every 16-bit word. -/
def allWords : List Word := (List.finRange (2 ^ 16)).map BitVec.ofFin

theorem mem_allWords (a : Word) : a ∈ allWords :=
  List.mem_map.2 ⟨a.toFin, List.mem_finRange _, rfl⟩

/-- The override list that gives the flag function `f` at every pair of operands. -/
def overridesOf (f : Word → Word → Flags) : List ((Word × Word) × Flags) :=
  (allWords.product allWords).map fun p => (p, f p.1 p.2)

theorem lookup_overridesOf (f : Word → Word → Flags) (a b : Word) :
    (overridesOf f).lookup (a, b) = some (f a b) :=
  List.lookup_graph (fun p : Word × Word => f p.1 p.2) (List.pair_mem_product.2 ⟨mem_allWords a, mem_allWords b⟩)

theorem configuredFlags_overridesOf (f : Word → Word → Flags) (c : Config) (a b : Word) :
    configuredFlags { c with cmpOverrides := overridesOf f } a b = f a b := by
  rw [configuredFlags, lookup_overridesOf]

/-- Settles O50: the list that overrides the flags of all operand pairs, whatever the other parameters are. -/
theorem everyFlagFunctionIsAConfiguration : Obligations.EveryFlagFunctionIsAConfiguration := by
  refine fun f c => ⟨overridesOf f, fun s rd ra hcfg => ⟨_, exec_cmp rd ra s, ?_⟩⟩
  rw [State.advance_flags, State.setFlags_flags, hcfg, configuredFlags_overridesOf]

end Sys2Proof.Machine

/-! Steps and their stops (spec/60_exceptions.md R65, R67, 70_reset_and_hazards.md R72): a well-formed instruction completes
or is a LW or SW without access to its address, so a step stops for no other reason than those of the fetch and the decoder. -/

namespace Sys2Proof.Machine

/-! ### When an instruction does not complete -/

/-- The instruction is a LW or SW, and the address it accesses has the fault `f`. -/
def AccessFaults (i : Instr) (s : State) (f : Fault) : Prop :=
  ∃ rd ra simm5, (i = .lw rd ra simm5 ∨ i = .sw rd ra simm5) ∧
    s.accessFault (effectiveAddress (s.readReg ra) simm5) = some f

theorem not_accessible_of_accessFault {s : State} {a : Word} {f : Fault} (h : s.accessFault a = some f) :
    ¬Accessible s a := by
  intro hacc
  rw [State.accessFault_of_accessible hacc] at h
  cases h

theorem exec_of_accessFaults {i : Instr} {s : State} {f : Fault} (h : AccessFaults i s f) : exec i s = .fault f := by
  obtain ⟨rd, ra, simm5, rfl | rfl, hf⟩ := h
  · exact exec_lw_of_accessFault rd hf
  · exact exec_sw_of_accessFault rd hf

theorem exec_jump_completes {i : Instr} {rd : RegIdx} {code : BitVec 8} (hj : jumpOperands i = some (rd, code))
    (hwf : i.wellFormed = true) (s : State) : ∃ t, exec i s = .next t := by
  obtain ⟨-, -, -, hexec⟩ := jump_of_jumpOperands hj
  obtain ⟨_, -, hnext⟩ := s.jumpOn_completes rd ((wellFormed_iff_of_jumpOperands hj).1 hwf)
  exact ⟨_, (hexec s).trans hnext⟩

/-- A well-formed instruction completes or has an access fault: the condition of a valid code is always defined. -/
theorem exec_completes_or_accessFaults {i : Instr} (hwf : i.wellFormed = true) (s : State) :
    (∃ t, exec i s = .next t) ∨ ∃ f, AccessFaults i s f := by
  cases i with
  | lw rd ra simm5 =>
    cases ha : s.accessFault (effectiveAddress (s.readReg ra) simm5) with
    | none =>
      obtain ⟨t, ht, -⟩ := writesRegister_lw_of_accessible rd ((State.accessFault_eq_none_iff ..).1 ha)
      exact .inl ⟨t, ht⟩
    | some f => exact .inr ⟨f, rd, ra, simm5, .inl rfl, ha⟩
  | sw rd ra simm5 =>
    cases ha : s.accessFault (effectiveAddress (s.readReg ra) simm5) with
    | none => exact .inl ⟨_, exec_sw_of_accessible rd ((State.accessFault_eq_none_iff ..).1 ha)⟩
    | some f => exact .inr ⟨f, rd, ra, simm5, .inr rfl, ha⟩
  | setc rd code =>
    obtain ⟨b, hb⟩ := flagCond_of_le (f := s.flags) (of_decide_eq_true hwf)
    obtain ⟨t, ht, -⟩ := writesRegister_setc rd hb
    exact .inl ⟨t, ht⟩
  | nop | movr | movi | add | addi | subi | cmp => exact .inl ⟨_, rfl⟩
  | jmp | je | jne | jg | jge | jl | jle | js | jns => exact .inl (exec_jump_completes rfl hwf s)

theorem accessible_of_full_ram {s : State} (hram : 65536 ≤ s.cfg.ramWords) (hm : s.cfg.memOrg = .separate) (a : Word) :
    Accessible s a := by
  refine ⟨Nat.lt_of_lt_of_le a.isLt hram, fun hu => ?_⟩
  rw [hm] at hu
  cases hu

/-- Settles O29: every address is accessible there, so no LW or SW has an access fault. -/
theorem everyInstructionCompletes : Obligations.EveryInstructionCompletes := by
  refine ⟨le_rfl, rfl, fun i s hram hm hwf => ?_⟩
  rcases exec_completes_or_accessFaults hwf s with hnext | ⟨f, _, _, _, -, hf⟩
  · exact hnext
  · exact absurd (accessible_of_full_ram hram hm _) (not_accessible_of_accessFault hf)

/-! ### The outcomes of a step -/

theorem step_of_decode {s : State} {w : Word} {i : Instr} (hw : s.fetch = .ok w) (hi : decode s.cfg w = .ok i) :
    step s = exec i s := by
  simp only [step, hw, hi]

theorem step_of_nextInstr {s : State} {i : Instr} (h : NextInstr s i) : step s = exec i s := by
  obtain ⟨_, hw, hi⟩ := h
  exact step_of_decode hw hi

theorem step_of_fetch_fault {s : State} {f : Fault} (h : s.fetch = .error f) : step s = .fault f := by
  simp only [step, h]

theorem State.fetch_eq_error {s : State} {f : Fault} (h : s.fetch = .error f) :
    (f = .endOfRun ∧ s.endPc = some s.pc) ∨ (f = .noInstruction s.pc ∧ s.instructionAt s.pc = none) := by
  unfold State.fetch at h
  split at h
  · cases h
    exact .inl ⟨rfl, ‹_›⟩
  · split at h
    · cases h
    · cases h
      exact .inr ⟨rfl, ‹_›⟩

/-- Every step is one of four: it completes, its fetch faults, its LW or SW has an access fault, or its word is invalid. -/
theorem step_cases (s : State) :
    (∃ t, step s = .next t) ∨ (∃ f, s.fetch = .error f ∧ step s = .fault f) ∨
    (∃ i f, NextInstr s i ∧ AccessFaults i s f ∧ step s = .fault f) ∨
    (∃ w e, s.fetch = .ok w ∧ decode s.cfg w = .error e ∧ step s = .refused (refusalOf e)) := by
  cases hw : s.fetch with
  | error f => exact .inr (.inl ⟨f, rfl, step_of_fetch_fault hw⟩)
  | ok w =>
    cases hi : decode s.cfg w with
    | error e => exact .inr (.inr (.inr ⟨w, e, rfl, hi, step_of_invalid hw hi⟩))
    | ok i =>
      have hstep := step_of_decode hw hi
      obtain ⟨-, hwf, -⟩ := encodeOfDecode s.cfg w i hi
      rcases exec_completes_or_accessFaults hwf s with ⟨t, ht⟩ | ⟨f, hf⟩
      · exact .inl ⟨t, hstep.trans ht⟩
      · exact .inr (.inr (.inl ⟨i, f, ⟨w, hw, hi⟩, hf, hstep.trans (exec_of_accessFaults hf)⟩))

theorem AccessFaults.not_accessible {i : Instr} {s : State} {f : Fault} (h : AccessFaults i s f) (hi : NextInstr s i) :
    ∃ rd ra simm5, (NextInstr s (.lw rd ra simm5) ∨ NextInstr s (.sw rd ra simm5)) ∧
      ¬Accessible s (effectiveAddress (s.readReg ra) simm5) := by
  obtain ⟨rd, ra, simm5, rfl | rfl, hf⟩ := h
  · exact ⟨rd, ra, simm5, .inl hi, not_accessible_of_accessFault hf⟩
  · exact ⟨rd, ra, simm5, .inr hi, not_accessible_of_accessFault hf⟩

/-- Settles O41: of the four kinds of step, two fault and one is refused. -/
theorem stepStopsOnlyWhereListed : Obligations.StepStopsOnlyWhereListed := by
  refine ⟨fun s => step_of_no_instruction, fun s f h => ?_, fun s q h => ?_⟩
  · rcases step_cases s with ⟨_, hs⟩ | ⟨_, hfetch, hs⟩ | ⟨_, _, hi, hacc, hs⟩ | ⟨_, _, -, -, hs⟩
    all_goals rw [h] at hs; cases hs
    · rcases State.fetch_eq_error hfetch with hend | hnone
      · exact .inl hend
      · exact .inr (.inl hnone)
    · exact .inr (.inr (hacc.not_accessible hi))
  · rcases step_cases s with ⟨_, hs⟩ | ⟨_, -, hs⟩ | ⟨_, _, -, -, hs⟩ | ⟨w, e, hw, he, hs⟩
    all_goals rw [h] at hs; cases hs
    exact ⟨w, e, hw, he, rfl⟩

/-- Settles O40: a step is its fetch, its decoding and the decoded instruction, with nothing around them. -/
theorem stepRunsTheDecodedInstruction : Obligations.StepRunsTheDecodedInstruction :=
  fun _ _ _ hw hi => step_of_decode hw hi

/-! ### The end of a run -/

theorem exec_jmp_zero_self {s : State} {rd : RegIdx} (h : s.readReg rd = s.pc) : exec (.jmp rd 0) s = .next s := by
  rw [exec_jmp_zero, h]
  rfl

theorem run_of_step_self {s : State} (h : step s = .next s) (n : Nat) : Host.Core.run core n s = .next s := by
  induction n with
  | zero => rfl
  | succ n ih => rw [run_succ_of_step h, ih]

/-- Settles O42: nothing is fetched at END_PC, and a jump to itself is a step from a state to that state. -/
theorem runsEndAtEndPcOrSpin : Obligations.RunsEndAtEndPcOrSpin := by
  refine ⟨fun s hend => step_of_fetch_fault (if_pos hend), fun s rd hi hself => run_of_step_self ?_⟩
  rw [step_of_nextInstr hi, exec_jmp_zero_self hself]

/-! ### Launch: an unwritten cell and a placed word -/

/-- Settles O13: the value LW reads from an unwritten cell is the free one. -/
theorem lwOfUnwrittenCellGivesLaunchValue : Obligations.LwOfUnwrittenCellGivesLaunchValue := by
  rintro s rd ra simm5 _ rfl hacc hnone
  rw [← State.ramValue_of_unwritten hnone]
  exact writesRegister_lw_of_accessible rd hacc

theorem instructionAt_placeInstruction {s : State} (h : s.cfg.memOrg = .separate ∨ s.pc.toNat < s.cfg.ramWords)
    (w : Word) : (s.placeInstruction w).instructionAt s.pc = some w := by
  have hread : (s.placeInstruction w).prog.read s.pc = some w := Memory.read_write_self ..
  rcases h with hm | hin
  · exact (State.instructionAt_of_separate (s := s.placeInstruction w) hm _).trans hread
  · exact State.instructionAt_of_text hin hread

theorem placeInstruction_endPc_ne (s : State) (w : Word) : (s.placeInstruction w).endPc ≠ some s.pc := by
  rw [State.placeInstruction_endPc]
  split
  · exact (Option.some_ne_none _).symm
  · assumption

/-- Settles O43: the word is the program text at the pc, which is not END_PC any more. -/
theorem placedWordIsFetchedNext : Obligations.PlacedWordIsFetchedNext :=
  fun s _ _ h => ⟨(State.fetch_eq_ok_iff ..).2 ⟨placeInstruction_endPc_ne s _, instructionAt_placeInstruction h _⟩,
    fun _ => rfl, rfl, rfl, rfl, rfl, rfl, fun _ ha => Memory.read_write_ne _ _ ha⟩

end Sys2Proof.Machine

/-! Runs (spec/20_memory.md R27, 44_compare_setc.md R52, 70_reset_and_hazards.md R71): what a run without a certain kind of
instruction leaves alone, and that a run which reads only what it has written cannot see the rest. -/

namespace Sys2Proof.Machine

/-! ### Loads after a run (20_memory.md R27) -/

theorem Accessible.of_sameLaunch {s t : State} {a : Word} (h : Accessible s a) (hl : SameLaunch s t) :
    Accessible t a := by
  obtain ⟨hprog, -, hcfg⟩ := hl
  rwa [Accessible, hprog, hcfg]

theorem RunAvoiding.ramValue_eq {a : Word} {s t : State} (h : RunAvoiding (StoresTo a) s t) :
    t.ramValue a = s.ramValue a := by
  rw [State.ramValue, h.ram_read_eq, State.ramValue]

/-- After a run without a store to an accessible cell, LW gives the value the cell had before the run. -/
theorem writesRegister_lw_after_run {s t : State} {a : Word} {rd ra : RegIdx} {simm5 : BitVec 5} (hacc : Accessible s a)
    (hrun : RunAvoiding (StoresTo a) s t) (hea : effectiveAddress (t.readReg ra) simm5 = a) :
    WritesRegister (.lw rd ra simm5) t rd (s.ramValue a) := by
  subst hea
  rw [← hrun.ramValue_eq]
  exact writesRegister_lw_of_accessible rd (hacc.of_sameLaunch hrun.sameLaunch)

/-- Settles O44: SW leaves its value in the cell, and a run without another SW to the cell keeps the cell's value. -/
theorem lwReadsTheLatestStore : Obligations.LwReadsTheLatestStore := by
  refine ⟨?_, fun s a hacc => ⟨s.ramValue a, fun u hu => State.ramValue_of_read hu,
    fun _ _ _ _ hrun hea => writesRegister_lw_after_run hacc hrun hea⟩⟩
  rintro s s₁ s₂ rd ra rd' ra' simm5 simm5' a rfl hsw hrun hea
  obtain ⟨hacc, hs₁⟩ := exec_sw_eq_next hsw
  have hvalue : s₁.ramValue (effectiveAddress (s.readReg ra) simm5) = s.readReg rd := by
    rw [hs₁]
    exact State.ramValue_of_read (Memory.read_write_self ..)
  rw [← hvalue]
  exact writesRegister_lw_after_run (hacc.of_sameLaunch (exec_effect hsw).sameLaunch) hrun hea

/-! ### Conditions after a run (44_compare_setc.md R52) -/

theorem step_flags_eq {s t : State} (h : ¬ComparesNext s) (hstep : step s = .next t) : t.flags = s.flags := by
  obtain ⟨w, i, hw, hi, hexec⟩ := step_eq_next hstep
  exact (exec_effect hexec).flags_eq fun rd ra hcmp => h ⟨rd, ra, w, hw, hcmp ▸ hi⟩

theorem RunAvoiding.flags_eq {s t : State} (h : RunAvoiding ComparesNext s t) : t.flags = s.flags := by
  induction h with
  | refl => rfl
  | tail _ havoid hstep ih => exact (step_flags_eq havoid hstep).trans ih

theorem flagCond_eq_decide {f : Flags} {code : BitVec 8} {P Q : Prop} [Decidable Q] (hcode : code.toNat ≤ 8)
    (hP : flagCond f code = some true ↔ P) (hQ : P ↔ Q) : flagCond f code = some (decide Q) := by
  obtain ⟨b, hb⟩ := flagCond_of_le (f := f) hcode
  rw [hb, Option.some_inj] at hP
  rw [hb, Option.some_inj, Bool.eq_iff_iff, hP, hQ, decide_eq_true_iff]

section
variable {f : Flags} {a b : Word}

theorem flagCond_of_ZF (h : f.ZF = true ↔ a = b) :
    flagCond f 1 = some (decide (a = b)) ∧ flagCond f 2 = some (decide (a ≠ b)) := by
  obtain ⟨-, h1, h2, -⟩ := conditionCodesSelectTheirTest f
  exact ⟨flagCond_eq_decide (by decide) h1 h, flagCond_eq_decide (by decide) h2 (by rw [← Bool.not_eq_true, h])⟩

theorem flagCond_of_order (h : f.SF ≠ f.OF ↔ a.toInt < b.toInt) :
    flagCond f 4 = some (decide (b.toInt ≤ a.toInt)) ∧ flagCond f 5 = some (decide (a.toInt < b.toInt)) := by
  obtain ⟨-, -, -, -, h4, h5, -⟩ := conditionCodesSelectTheirTest f
  exact ⟨flagCond_eq_decide (by decide) h4 (SF_eq_OF_iff_le h), flagCond_eq_decide (by decide) h5 h⟩

theorem flagCond_of_ZF_and_order (hZF : f.ZF = true ↔ a = b) (h : f.SF ≠ f.OF ↔ a.toInt < b.toInt) :
    flagCond f 3 = some (decide (b.toInt < a.toInt)) ∧ flagCond f 6 = some (decide (a.toInt ≤ b.toInt)) := by
  obtain ⟨-, -, -, h3, -, -, h6, -⟩ := conditionCodesSelectTheirTest f
  exact ⟨flagCond_eq_decide (by decide) h3 (not_ZF_and_SF_eq_OF_iff_lt hZF h),
    flagCond_eq_decide (by decide) h6 (ZF_or_SF_ne_OF_iff_le hZF h)⟩

end

/-- Settles O45: the flags after the run are CMP's, and each code's test speaks of the operands by the named properties. -/
theorem conditionsSpeakOfTheLatestCmp : Obligations.ConditionsSpeakOfTheLatestCmp := by
  obtain ⟨-, -, hproperties, -⟩ := cmpFlagsAreOfTheDifference
  refine ⟨hproperties, ?_⟩
  rintro s s₁ s₂ rd ra a b rfl rfl hcmp hrun
  cases hcmp
  have hflags : s₂.flags = configuredFlags s.cfg (s.readReg rd) (s.readReg ra) := hrun.flags_eq
  rw [hflags]
  refine ⟨rfl, flagCond_zero _, fun hZF => flagCond_of_ZF (hZF _ _),
    fun hZF horder => flagCond_of_ZF_and_order (hZF _ _) (horder _ _), fun horder => flagCond_of_order (horder _ _),
    fun hSF => ?_⟩
  rw [← hSF]
  exact ⟨rfl, rfl⟩

/-! ### Clean runs (70_reset_and_hazards.md R71) -/

section
variable {w : Written} {i : Instr} {s s' : State}

/-- A code other than 0 is tested only by an instruction that reads the flags. -/
theorem readsFlags_of_condition {rd : RegIdx} {code : BitVec 8}
    (h : jumpOperands i = some (rd, code) ∨ i = .setc rd code) (hcode : code ≠ 0) : readsFlags i = true := by
  rcases h with h | rfl
  · cases i with
    | jmp => cases h; simpa [readsFlags] using hcode
    | je | jne | jg | jge | jl | jle | js | jns => rfl
    | nop | lw | sw | movr | movi | add | addi | subi | cmp | setc => cases h
  · simpa [readsFlags] using hcode

theorem readsAgree_of_agreeOn (hcov : w.Covers i) (h : AgreeOn w s s') : ReadsAgree i s s' := by
  obtain ⟨hregs, hflags⟩ := hcov
  obtain ⟨-, hram, hlaunch, hsame, hsameFlags⟩ := h
  refine ⟨fun r hr => (hsame r (hregs r hr)).symm, fun rd code hc => ?_, hram.symm, hlaunch⟩
  by_cases hcode : code = 0
  · rw [hcode, flagCond_zero, flagCond_zero]
  · rw [hsameFlags (hflags (readsFlags_of_condition hc hcode))]

/-- What the instruction writes agrees after it, and what it leaves alone agrees as it did before. -/
theorem SameEffect.agreeOn {t u : State} (he : SameEffect i s s' t u) (ht : Effect i s t) (h : AgreeOn w s s') :
    AgreeOn (w.after i) t u := by
  obtain ⟨hpc, -, -, hsame, hsameFlags⟩ := h
  refine ⟨(he.pc hpc.symm).symm, he.ram.symm, he.launch, fun r hr => ?_, fun hf => ?_⟩
  · rw [he.regs r]
    split
    · rfl
    · rename_i hw
      have hr' : r ∈ w.regs := by simpa [Written.after, hw] using hr
      rw [ht.readReg_eq hw, hsame r hr']
  · rw [he.flags]
    split
    · rfl
    · rename_i hw
      have hf' : w.flags = true := by simpa [Written.after, hw] using hf
      rw [ht.flags_eq fun rd ra hi => hw (hi ▸ rfl), hsameFlags hf']

theorem SameOutcome.outcomesAgree {o o' : Host.Outcome State Fault Refusal} (hout : SameOutcome i s s' o o')
    (heffect : ∀ t, o = .next t → Effect i s t) (h : AgreeOn w s s') : OutcomesAgree (w.after i) o o' := by
  cases hout with
  | next he => exact he.agreeOn (heffect _ rfl) h
  | fault | refused => rfl

theorem exec_outcomesAgree (hcov : w.Covers i) (h : AgreeOn w s s') :
    OutcomesAgree (w.after i) (exec i s) (exec i s') :=
  (exec_sameOutcome (readsAgree_of_agreeOn hcov h)).outcomesAgree (fun _ ht => exec_effect ht) h

/-- Agreeing states have the same instruction next, which is read from what is never unwritten. -/
theorem NextInstr.of_agreeOn (hi : NextInstr s i) (h : AgreeOn w s s') : NextInstr s' i := by
  obtain ⟨hpc, hram, ⟨hprog, hend, hcfg⟩, -⟩ := h
  obtain ⟨v, hv, hdecode⟩ := hi
  refine ⟨v, ?_, hcfg ▸ hdecode⟩
  rwa [State.fetch, State.instructionAt, ← hpc, ← hram, hprog, hend, hcfg]

end

/-- A clean run can be taken from every state that agrees on what is written, step by step. -/
theorem CleanRun.of_agreeOn {w w' : Written} {s s' t : State} (hrun : CleanRun w s w' s') (h : AgreeOn w s t) :
    ∃ t', CleanRun w t w' t' ∧ AgreeOn w' s' t' := by
  induction hrun with
  | refl => exact ⟨t, .refl, h⟩
  | tail _ hi hcov hstep ih =>
    obtain ⟨u, hu, hagree⟩ := ih
    have hi' := hi.of_agreeOn hagree
    rw [step_of_nextInstr hi] at hstep
    obtain ⟨u', hexec, he⟩ := exec_next_of_readsAgree (readsAgree_of_agreeOn hcov hagree) hstep
    exact ⟨u', hu.tail hi' hcov ((step_of_nextInstr hi').trans hexec), he.agreeOn (exec_effect hstep) hagree⟩

/-- Settles O46: agreement on what is written is a simulation, kept by every instruction that reads only that. -/
theorem cleanRunsIgnoreUnwrittenState : Obligations.CleanRunsIgnoreUnwrittenState :=
  ⟨fun _ _ _ _ _ hrun h => hrun.of_agreeOn h, fun _ _ _ _ hcov h => exec_outcomesAgree hcov h⟩

end Sys2Proof.Machine

/-! Assembly lines and clock cycles (spec/30_encoding.md R39, 70_reset_and_hazards.md R74): the tables transcribed as data. -/

namespace Sys2Proof

/-! ### Assembly lines -/

theorem parse_assembly (i : Instr) : i.assembly.parse = some i := by
  cases i <;> rfl

theorem assemble_eq_some_iff (l : AsmLine) (i : Instr) :
    l.assemble = some i ↔ l.parse = some i ∧ i.wellFormed = true :=
  Option.filter_eq_some_iff

/-- Settles O48: a line assembles to what it is parsed as, where that is well-formed; a jump has the word of JMP. -/
theorem assemblyLinesAssembleBack : Obligations.AssemblyLinesAssembleBack := by
  refine ⟨fun i hwf => (assemble_eq_some_iff ..).2 ⟨parse_assembly i, hwf⟩, fun _ => rfl,
    fun l i h => ((assemble_eq_some_iff l i).1 h).2, fun c rd p hp => ?_⟩
  simp only [List.mem_cons, List.not_mem_nil, or_false] at hp
  rcases hp with rfl | rfl | rfl | rfl | rfl | rfl | rfl | rfl
  all_goals rfl

/-! ### Clock cycles -/

/-- Settles O49: each row of the table, for every instruction of the row. -/
theorem cyclesCountTheStages : Obligations.CyclesCountTheStages := by
  refine ⟨fun i => ?_, ⟨rfl, rfl⟩, fun rd ra simm5 i hi => ?_, fun rd ra imm8 i hi => ?_, fun rd imm8 i hi => ?_⟩
  · cases i <;> rfl
  all_goals
    simp only [List.mem_cons, List.not_mem_nil, or_false] at hi
  · rcases hi with rfl | rfl
    all_goals exact ⟨rfl, rfl⟩
  · rcases hi with rfl | rfl | rfl | rfl | rfl | rfl | rfl
    all_goals exact ⟨rfl, rfl⟩
  · rcases hi with rfl | rfl | rfl | rfl | rfl | rfl | rfl | rfl | rfl
    all_goals exact ⟨rfl, rfl⟩

end Sys2Proof
